-- ==== Sys2Proof/Word.lean ====
section
/-! DEFINITION. The one word type of the engine: the 8-bit cell (00_scope.md R6, R11). -/

namespace Sys2Proof

/-- A Byte: an 8-bit value, read as unsigned, with arithmetic modulo 256 (00_scope.md R6, R11; 10_state.md R22).
It is the width of a tape cell, of a port transaction and of a source byte. Nothing in the engine is signed. -/
abbrev Byte := BitVec 8

end Sys2Proof
end

