-- ==== Sys2Proof/Config.lean ====
section
/-! DEFINITION. What a realisation of the engine fixes: the four OPEN parameters of 00_scope.md R8 to R10. The engine has no
instruction with an undefined result, so there is no opaque free value here. -/

namespace Sys2Proof

/-- The parameters of a realisation (00_scope.md R8 to R10, 92_eei_decisions.md D7). `none` means "no bound". The spec leaves
every one of them OPEN, so the model carries them as data that no step writes, and a claim holds for every choice of them. -/
structure Realisation where
  /-- `MaxTapeCells`: the most cells the tape may hold (R8, 60_exceptions.md R182). -/
  maxTapeCells : Option Nat
  /-- `MaxLoopDepth`: the most entries the loop stack may hold (R10, 60_exceptions.md R182). -/
  maxLoopDepth : Option Nat
  /-- `IpWidth`: the bits of the instruction pointer and of a loop-stack entry (R9). -/
  ipWidth : Option Nat
  /-- `HeadWidth`: the bits of the head index (R9). -/
  headWidth : Option Nat
deriving DecidableEq, Repr

/-- The normative model: no tape bound, no stack bound, unbounded naturals (00_scope.md R8 to R10). -/
def Realisation.normative : Realisation :=
  { maxTapeCells := none, maxLoopDepth := none, ipWidth := none, headWidth := none }

end Sys2Proof
end

