-- ==== Sys2Proof/Syntax.lean ====
section
/-! DEFINITION. The instruction set: the closed set of eight payload-free operations (30_encoding.md R70, R72, R77). -/

namespace Sys2Proof

/-- An Op, in the variant order of 30_encoding.md R80. "a closed set of eight variants ... carrying no payload" (R70): no
operation has an operand, an immediate or a mode field. -/
inductive Instr where
  /-- Add, `+` (41_cell_ops.md R110). -/
  | add
  /-- Subtract, `-` (41_cell_ops.md R111). -/
  | subtract
  /-- Read, `,` (43_io_ops.md R130). -/
  | read
  /-- Write, `.` (43_io_ops.md R131). -/
  | write
  /-- Left, `<` (42_head_ops.md R121). -/
  | left
  /-- Right, `>` (42_head_ops.md R120). -/
  | right
  /-- LoopStart, `[` (44_loop_ops.md R140, R141). -/
  | loopStart
  /-- LoopEnd, `]` (44_loop_ops.md R142, R143). -/
  | loopEnd
deriving DecidableEq, Repr

/-- A program: the operation sequence of 10_state.md R27. Its length is `N` (00_scope.md R7). -/
abbrev Program := List Instr

end Sys2Proof
end

