-- ==== Sys2Proof/Machine/State.lean ====
section
/-! DEFINITION. The state of the engine (10_state.md R21, R35) as plain data, the host's side of the two byte ports, the reasons
a step can stop, and the state after reset (70_reset_and_hazards.md R190 to R197). -/

namespace Sys2Proof.Machine

/-- Memory: (index, cell) pairs, strictly rising, listing only cells that do not hold 0 (`Memory.wf`, in Machine/Ops.lean). -/
abbrev Memory := List Host.Cell

/-- The materialized tape (10_state.md R21 to R24): `len` cells, those not listed in `cells` holding 0. `Tape.toList` is the
spec's "ordered sequence of Cells"; the sparse form is the model's (log 6). -/
structure Tape where
  /-- The cells that hold a nonzero byte, by tape index. -/
  cells : Memory
  /-- `len(tape)`, at least 1 (R37). -/
  len : Nat
deriving DecidableEq, Repr

/-- The skip-mode marker (10_state.md R31): "either 'not skipping' or 'skipping, with original LoopStart position P'". In
Normal mode there is no origin (93_implementation_defined.md: MODE.origin must not be read there). -/
inductive Mode where
  | normal
  | skipping (origin : Nat)
deriving DecidableEq, Repr

/-- The kinds of fault (60_exceptions.md R160, R161); the last two exist only in a finite realisation (R182). -/
inductive FaultKind where
  | unmatchedLoopEnd
  | inputFailure
  | outputFailure
  | tapeCapacityExceeded
  | loopStackOverflow
deriving DecidableEq, Repr

/-- The sub-cause of a fault (60_exceptions.md R161). The source does not tell the two input causes apart (R163, D4; log 10). -/
inductive SubCause where
  | none
  | exhausted
  | channelError
deriving DecidableEq, Repr

/-- The fault record (60_exceptions.md R161): kind, sub-cause and the ip of the operation that faulted. -/
structure FaultRecord where
  kind : FaultKind
  sub : SubCause
  pos : Nat
deriving DecidableEq, Repr

/-- `status` (10_state.md R32): `Running` until a step faults, then `Faulted(f)` for ever. While Running there is no record to
read (70_reset_and_hazards.md R196). -/
inductive Status where
  | running
  | faulted (f : FaultRecord)
deriving DecidableEq, Repr

/-- The host's answer to an input request (00_scope.md R14, 60_exceptions.md R173). -/
inductive InAnswer where
  /-- `InByte(b)`, any byte; 0 is data, not end of input (43_io_ops.md R130). -/
  | byte (b : Byte)
  /-- `InExhausted`: no remaining bytes. -/
  | exhausted
  /-- `InError`: the channel errors. -/
  | error
deriving DecidableEq, Repr

/-- The host's answer to an output request (00_scope.md R14, 60_exceptions.md R174). -/
inductive OutAnswer where
  | ok
  | error
deriving DecidableEq, Repr

/-- A port request (60_exceptions.md R173, R174); an output request carries the byte to emit. -/
inductive Request where
  | input
  | output (b : Byte)
deriving DecidableEq, Repr

/-- The host's side of the two byte ports (60_exceptions.md R173, R174). It is not state of the engine (10_state.md R46): it
stands in State because a step is a function of State alone. A list holds the answers given so far; an endless sequence of
answers is `HostAnswers` (Safety.lean), which hands them over one request at a time (log 2). -/
structure Ports where
  /-- The answers the host has given to the next input requests, in order. -/
  inAnswers : List InAnswer
  /-- The answers the host has given to the next output requests, in order. -/
  outAnswers : List OutAnswer
  /-- The input stream so far: the bytes of the InByte answers, in order (R173). -/
  inStream : List Byte
  /-- The output stream so far: the bytes of the requests answered OutOk, in order (R174). -/
  outStream : List Byte
deriving DecidableEq, Repr

/-- The machine: the seven fields of 10_state.md R21, the request a step waits in (log 3), the host's side of the ports (log 2)
and the parameters of the realisation (log 4). -/
structure State where
  /-- TAPE: the cells (R22 to R24). -/
  tape : Tape
  /-- HEAD: "the tape position currently addressed" (R23). -/
  head : Nat
  /-- PROG: the operation sequence, never written by a step (R27). -/
  prog : Program
  /-- IP: an index into `prog`, in 0..N (R28). -/
  ip : Nat
  /-- LSTACK: positions of open LoopStarts, bottom first, top last (R30; 00_scope.md R11). -/
  lstack : List Nat
  /-- MODE (R31). -/
  mode : Mode
  /-- STATUS (R32). -/
  status : Status
  /-- The port request the step in flight waits in; none between steps (60_exceptions.md R178). -/
  wait : Option Request
  /-- The host's side of the byte ports. -/
  ports : Ports
  /-- The OPEN parameters of this realisation; no step writes them (00_scope.md R8 to R10). -/
  realisation : Realisation
deriving DecidableEq, Repr

/-- Why the MODEL stops with a fault. A fault of the ENGINE (60_exceptions.md R160) is not here: it is a next state whose
`status` is `faulted`. -/
inductive Fault where
  /-- Raised by every operation that reads or writes the cell under the head in Normal mode, when `head >= len(tape)`: no such
  cell exists. Safe: the model stops, and 10_state.md R37, R42 say that no run gets there (log 7). -/
  | headOffTape
deriving DecidableEq, Repr

/-- Why the model refuses. -/
inductive Refusal where
  /-- Raised by exec's arm of an instruction that has no meaning yet. Safe. -/
  | notModelled (mnemonic : String)
  /-- Raised by `step` when `status` is `faulted`: "a step request in the `Faulted` status has no transition: a model refuses
  it" (40_execution_cycle.md R92). Safe. -/
  | stepAfterFault
  /-- Raised by a debug read of MODE.origin in Normal mode, or of a fault field while Running: unspecified, "must not be read"
  (10_state.md R35, 93_implementation_defined.md). Safe. Never raised by a step. -/
  | unspecifiedField
  /-- Raised by the load of a source that is not valid UTF-8: "outside the engine", `refuse` (93_implementation_defined.md; R82).
  Safe. Never raised by a step. -/
  | notUtf8
deriving DecidableEq, Repr

/-- The state right after reset (70_reset_and_hazards.md R191 to R196), with no program loaded yet and no answer of the host
given (log 1, log 2), in the normative realisation (log 4). -/
def State.reset : State :=
  { tape := { cells := [], len := 1 }
    head := 0
    prog := []
    ip := 0
    lstack := []
    mode := .normal
    status := .running
    wait := none
    ports := { inAnswers := [], outAnswers := [], inStream := [], outStream := [] }
    realisation := Realisation.normative }

end Sys2Proof.Machine
end

