-- ==== Sys2Proof/Machine/Ops.lean ====
section
/-! DEFINITION. The named operations over memory, the tape, the pointers, the loop stack and the ports, and raising a fault
(the engine's one kind of exception; it has no return from one, 60_exceptions.md R169). -/

namespace Sys2Proof.Machine

/-- What an unlisted cell reads as: "A cell is created holding 0" (10_state.md R22). -/
def Memory.unlisted : Byte := 0x00#8

/-- The canonical form: indices strictly rising, and no entry equal to what an unlisted cell reads as. -/
abbrev Memory.wf (m : Memory) : Prop :=
  m.Pairwise (fun x y => x.1 < y.1) ∧ ∀ c ∈ m, c.2 ≠ Memory.unlisted

/-- Read one cell. -/
def Memory.read : Memory → Nat → Byte
  | [], _ => Memory.unlisted
  | c :: m, a => if c.1 = a then c.2 else Memory.read m a

/-- Put an entry in front, unless it says what an unlisted cell says. -/
def Memory.entry (a : Nat) (v : Byte) (m : Memory) : Memory :=
  if v = Memory.unlisted then m else (a, v) :: m

/-- Write one cell, keeping the canonical form. -/
def Memory.write : Memory → Nat → Byte → Memory
  | [], a, v => Memory.entry a v []
  | c :: m, a, v =>
    if a < c.1 then Memory.entry a v (c :: m)
    else if a = c.1 then Memory.entry a v m
    else c :: Memory.write m a v

/-- Move every cell up by `n` indices: what a growth at the left edge does to existing cells (10_state.md R24). -/
def Memory.shiftUp (n : Nat) (m : Memory) : Memory := m.map fun c => (c.1 + n, c.2)

/-- A tape in canonical form: at least one cell (10_state.md R23), every listed cell on the tape, the list canonical. -/
abbrev Tape.wf (t : Tape) : Prop :=
  Memory.wf t.cells ∧ (∀ c ∈ t.cells, c.1 < t.len) ∧ 1 ≤ t.len

/-- `MemRead(a, 1)` (00_scope.md R13): the cell at index `a`, none where no such cell exists. -/
def Tape.read? (t : Tape) (a : Nat) : Option Byte :=
  if a < t.len then some (t.cells.read a) else none

/-- `MemWrite(a, 1, v)` (00_scope.md R13), for an index on the tape. -/
def Tape.write (t : Tape) (a : Nat) (v : Byte) : Tape := { t with cells := t.cells.write a v }

/-- Growth at the right edge: `n` zero cells appended (10_state.md R24). -/
def Tape.append (t : Tape) (n : Nat) : Tape := { t with len := t.len + n }

/-- Growth at the left edge: `n` zero cells prepended, every existing index up by `n` (10_state.md R24). -/
def Tape.prepend (t : Tape) (n : Nat) : Tape := { cells := t.cells.shiftUp n, len := t.len + n }

/-- The tape as the spec's sequence of Byte (10_state.md R21, R23). -/
def Tape.toList (t : Tape) : List Byte := (List.range t.len).map t.cells.read

/-- `Fetch(ip)` (00_scope.md R14, 40_execution_cycle.md R93): none past the end of the program. -/
def State.fetch (s : State) : Option Instr := s.prog[s.ip]?

/-- The advance of 40_execution_cycle.md R97. -/
def State.advance (s : State) : State := { s with ip := s.ip + 1 }

/-- The backward jump of 44_loop_ops.md R142: `ip <- p`, not incremented further this step. -/
def State.jumpTo (p : Nat) (s : State) : State := { s with ip := p }

/-- `raise Fault(kind, sub, pos)` with pos the ip (00_scope.md R15, 60_exceptions.md R161, R165): `status` is the only field of
the engine it writes; the ip still names the faulting operation. There is no handler and no return (R166, R169). -/
def State.raise (kind : FaultKind) (sub : SubCause) (s : State) : State :=
  { s with status := .faulted { kind := kind, sub := sub, pos := s.ip } }

/-- 40_execution_cycle.md R96: in Skipping mode the six plain operations have no effect but the advance of ip. -/
def State.unlessSkipping (s : State) (body : Host.Outcome State Fault Refusal) : Host.Outcome State Fault Refusal :=
  match s.mode with
  | .skipping _ => .next s.advance
  | .normal => body

/-- May the tape grow by `n` cells? Always in the normative model; within `MaxTapeCells` in a finite realisation
(60_exceptions.md R182). Growing by nothing is always possible. -/
def State.mayGrow (s : State) (n : Nat) : Bool :=
  match s.realisation.maxTapeCells with
  | none => true
  | some m => decide (n = 0) || decide (s.tape.len + n ≤ m)

/-- May the loop stack take one more entry? Within `MaxLoopDepth` in a finite realisation (60_exceptions.md R182). -/
def State.mayPush (s : State) : Bool :=
  match s.realisation.maxLoopDepth with
  | none => true
  | some m => decide (s.lstack.length + 1 ≤ m)

/-- How many cells `shift_right(n)` appends: `max(0, head + n + 1 - len(tape))` (42_head_ops.md R122). -/
def State.growRight (n : Nat) (s : State) : Nat := s.head + n + 1 - s.tape.len

/-- `shift_right(n)` (42_head_ops.md R120, R122). -/
def State.shiftRight (n : Nat) (s : State) : State :=
  { s with tape := s.tape.append (s.growRight n), head := s.head + n }

/-- How many cells `shift_left(n)` prepends: `max(0, n - head)` (42_head_ops.md R122). -/
def State.growLeft (n : Nat) (s : State) : Nat := n - s.head

/-- `shift_left(n)` (42_head_ops.md R121, R122): the head moves up with the cells, then down by `n`. -/
def State.shiftLeft (n : Nat) (s : State) : State :=
  { s with tape := s.tape.prepend (s.growLeft n), head := s.head + s.growLeft n - n }

/-- `lstack.push(ip)` (10_state.md R30, 44_loop_ops.md R140, R141). -/
def State.pushLoop (s : State) : State := { s with lstack := s.lstack ++ [s.ip] }

/-- `p <- top(lstack); lstack <- lstack.pop` (44_loop_ops.md R142, R143); none on an empty stack. -/
def State.popLoop (s : State) : Option (Nat × State) :=
  match s.lstack.getLast? with
  | none => none
  | some p => some (p, { s with lstack := s.lstack.dropLast })

/-- The byte an input answer moves into the input stream: one for InByte, none otherwise (60_exceptions.md R173). -/
def InAnswer.bytes : InAnswer → List Byte
  | .byte b => [b]
  | .exhausted => []
  | .error => []

/-- The byte an output answer moves into the output stream: that of a request answered OutOk (60_exceptions.md R174). -/
def OutAnswer.bytes (b : Byte) : OutAnswer → List Byte
  | .ok => [b]
  | .error => []

/-- `InRead()` (00_scope.md R14, 60_exceptions.md R173): one request and its one answer; none while the host has not answered. -/
def State.inRead (s : State) : Option (InAnswer × State) :=
  match s.ports.inAnswers with
  | [] => none
  | a :: rest =>
    some (a, { s with
      wait := none
      ports := { s.ports with inAnswers := rest, inStream := s.ports.inStream ++ a.bytes } })

/-- `OutWrite(b)` (00_scope.md R14, 60_exceptions.md R174): one request and its one answer; none while the host has not
answered. -/
def State.outWrite (b : Byte) (s : State) : Option (OutAnswer × State) :=
  match s.ports.outAnswers with
  | [] => none
  | a :: rest =>
    some (a, { s with
      wait := none
      ports := { s.ports with outAnswers := rest, outStream := s.ports.outStream ++ a.bytes b } })

/-- The engine waits inside the step for the answer to a request: "While it waits, the engine does nothing else" and "no state
is lost while it waits" (60_exceptions.md R178; log 3). -/
def State.await (r : Request) (s : State) : State := { s with wait := some r }

end Sys2Proof.Machine
end

