-- ==== Sys2Proof/Machine/Operands.lean ====
section
/-! DEFINITION. The one operand form: the implicit cell under the head (30_encoding.md R72, 20_memory.md R52), and the tape's
add and subtract primitives on it (41_cell_ops.md R113). -/

namespace Sys2Proof.Machine

/-- `Cell()` (00_scope.md R13): the cell under the head. None only in a state that no run reaches (10_state.md R42). -/
def State.cell? (s : State) : Option Byte := s.tape.read? s.head

/-- Go on with `Cell()`; stop where the head is not on the tape (log 7). -/
def State.withCell (s : State) (body : Byte → Host.Outcome State Fault Refusal) : Host.Outcome State Fault Refusal :=
  match s.cell? with
  | some b => body b
  | none => .fault .headOffTape

/-- `SetCell(v)` (00_scope.md R13). -/
def State.setCell (v : Byte) (s : State) : State := { s with tape := s.tape.write s.head v }

/-- The tape's `add(delta)` for any delta: `(Cell() + d) mod 256` (41_cell_ops.md R113). -/
def addDelta (d c : Byte) : Byte := c + d

/-- The tape's `subtract(delta)` for any delta: `(Cell() - d) mod 256` (41_cell_ops.md R113). -/
def subtractDelta (d c : Byte) : Byte := c - d

end Sys2Proof.Machine
end

