-- ==== Sys2Proof/Machine/Flags.lean ====
section
/-! DEFINITION. The engine has no flags and no condition codes (10_state.md R33). The one condition an operation tests is the
loop guard, evaluated when the bracket executes and stored nowhere. -/

namespace Sys2Proof.Machine

/-- The guard (00_scope.md R17): "true when that value is nonzero and false when it is zero". -/
def loopGuard (c : Byte) : Bool := c != 0x00#8

end Sys2Proof.Machine
end

