-- ==== Sys2Proof/Machine/CellOps.lean ====
section
/-! DEFINITION. Cell arithmetic: Add and Subtract (41_cell_ops.md R110 to R113). -/

namespace Sys2Proof.Machine

/-- Add (41_cell_ops.md R110): `SetCell((Cell() + 1) mod 256)`, the fixed delta 1; no effect in Skipping mode. -/
def execAdd (s : State) : Host.Outcome State Fault Refusal :=
  s.unlessSkipping (s.withCell fun c => .next (s.setCell (addDelta 1#8 c)).advance)

/-- Subtract (41_cell_ops.md R111): `SetCell((Cell() + 255) mod 256)`, which equals `(Cell() - 1) mod 256`; no effect in
Skipping mode. -/
def execSubtract (s : State) : Host.Outcome State Fault Refusal :=
  s.unlessSkipping (s.withCell fun c => .next (s.setCell (subtractDelta 1#8 c)).advance)

end Sys2Proof.Machine
end

