-- ==== Sys2Proof/Machine/HeadOps.lean ====
section
/-! DEFINITION. Head movement: Right and Left (42_head_ops.md R120 to R123), with the capacity fault of a finite realisation
(60_exceptions.md R182). -/

namespace Sys2Proof.Machine

/-- Right (42_head_ops.md R120): `shift_right(1)`; no effect in Skipping mode. It never fails in the normative model. -/
def execRight (s : State) : Host.Outcome State Fault Refusal :=
  s.unlessSkipping
    (if s.mayGrow (s.growRight 1) then .next (s.shiftRight 1).advance
     else .next (s.raise .tapeCapacityExceeded .none))

/-- Left (42_head_ops.md R121): `shift_left(1)`; no effect in Skipping mode. It never fails in the normative model. -/
def execLeft (s : State) : Host.Outcome State Fault Refusal :=
  s.unlessSkipping
    (if s.mayGrow (s.growLeft 1) then .next (s.shiftLeft 1).advance
     else .next (s.raise .tapeCapacityExceeded .none))

end Sys2Proof.Machine
end

