-- ==== Sys2Proof/Machine/IoOps.lean ====
section
/-! DEFINITION. Byte I/O: Read and Write (43_io_ops.md R130 to R133). -/

namespace Sys2Proof.Machine

/-- Read (43_io_ops.md R130, R132): one input transaction; the byte goes into the cell under the head; end of input and a
channel error are the InputFailure fault, never a substitute value. With no answer of the host yet, the step waits (R178). -/
def execRead (s : State) : Host.Outcome State Fault Refusal :=
  s.unlessSkipping (s.withCell fun _ =>
    match s.inRead with
    | none => .next (s.await .input)
    | some (.byte b, t) => .next (t.setCell b).advance
    | some (.exhausted, t) => .next (t.raise .inputFailure .exhausted)
    | some (.error, t) => .next (t.raise .inputFailure .channelError))

/-- Write (43_io_ops.md R131): one output transaction of the cell's value, raw; an OutError answer is the OutputFailure fault.
With no answer of the host yet, the step waits (R178, 90_conflicts.md C6). -/
def execWrite (s : State) : Host.Outcome State Fault Refusal :=
  s.unlessSkipping (s.withCell fun c =>
    match s.outWrite c with
    | none => .next (s.await (.output c))
    | some (.ok, t) => .next t.advance
    | some (.error, t) => .next (t.raise .outputFailure .channelError))

end Sys2Proof.Machine
end

