-- ==== Sys2Proof/Machine/LoopOps.lean ====
section
/-! DEFINITION. Loops: LoopStart and LoopEnd, each with a body per mode (44_loop_ops.md R140 to R148), one stack for both modes
(R144), and the stack-overflow fault of a finite realisation (60_exceptions.md R182). -/

namespace Sys2Proof.Machine

/-- LoopStart (44_loop_ops.md R140 Normal, R141 Skipping): push ip in both modes; in Normal mode a zero guard starts a skip with
this ip as origin; in Skipping mode the guard is not evaluated and the origin stays (90_conflicts.md C1, C2). -/
def execLoopStart (s : State) : Host.Outcome State Fault Refusal :=
  if s.mayPush then
    match s.mode with
    | .skipping _ => .next s.pushLoop.advance
    | .normal => s.withCell fun c =>
        if loopGuard c then .next s.pushLoop.advance
        else .next { s.pushLoop with mode := .skipping s.ip }.advance
  else .next (s.raise .loopStackOverflow .none)

/-- LoopEnd (44_loop_ops.md R142 Normal, R143 Skipping): pop in both modes, UnmatchedLoopEnd on an empty stack; in Normal mode a
nonzero guard jumps back to the popped LoopStart without an increment; in Skipping mode popping the origin ends the skip. -/
def execLoopEnd (s : State) : Host.Outcome State Fault Refusal :=
  match s.popLoop with
  | none => .next (s.raise .unmatchedLoopEnd .none)
  | some (p, t) =>
    match s.mode with
    | .skipping o => if p = o then .next { t with mode := .normal }.advance else .next t.advance
    | .normal => t.withCell fun c => if loopGuard c then .next (t.jumpTo p) else .next t.advance

end Sys2Proof.Machine
end

