-- ==== Sys2Proof/WellFormed.lean ====
section
/-! DEFINITION. What is well formed: every instruction is (30_encoding.md R77: the type is closed, no payload to check); a
realisation and a program must fit each other (00_scope.md R8, R9). -/

namespace Sys2Proof

/-- Every Op is a legal instruction: "no illegal, reserved or unallocated encodings" (30_encoding.md R77). No arm has a check,
because no operation has a payload (R72); each constructor is named so that a new one cannot slip past. -/
def Instr.wf : Instr → Bool
  | .add => true
  | .subtract => true
  | .read => true
  | .write => true
  | .left => true
  | .right => true
  | .loopStart => true
  | .loopEnd => true

/-- `MaxTapeCells` leaves room for the one cell the tape always holds (10_state.md R23, R37). -/
def Realisation.tapeBoundOk (r : Realisation) : Bool :=
  match r.maxTapeCells with
  | none => true
  | some m => decide (1 ≤ m)

/-- "`HeadWidth` must hold every index below `MaxTapeCells`" (00_scope.md R9). A finite head needs a finite tape. -/
def Realisation.headWidthOk (r : Realisation) : Bool :=
  match r.headWidth, r.maxTapeCells with
  | none, _ => true
  | some _, none => false
  | some w, some m => decide (m ≤ 2 ^ w)

/-- "`IpWidth` must hold every value 0..N inclusive" (00_scope.md R9). -/
def Program.fits (r : Realisation) (p : Program) : Bool :=
  match r.ipWidth with
  | none => true
  | some w => decide (p.length < 2 ^ w)

/-- The realisation can run the program: all three checks of 00_scope.md R8, R9. -/
def Realisation.wf (r : Realisation) (p : Program) : Bool :=
  r.tapeBoundOk && r.headWidthOk && Program.fits r p

/-- Brackets that match as parentheses (40_execution_cycle.md R105): no bracket, or a plain operation and a balanced rest, or a
loop over a balanced body and a balanced rest. The engine never checks this (R104, R145); claims use it. -/
inductive Balanced : Program → Prop where
  | nil : Balanced []
  | plain {i : Instr} {rest : Program} (hs : i ≠ .loopStart) (he : i ≠ .loopEnd) (h : Balanced rest) : Balanced (i :: rest)
  | loop {body rest : Program} (hb : Balanced body) (hr : Balanced rest) : Balanced (.loopStart :: (body ++ .loopEnd :: rest))

end Sys2Proof
end

