-- ==== Sys2Proof/Decode.lean ====
section
/-! DEFINITION. The two encodings: the external source byte (30_encoding.md R73 to R76, R81, R83) and the internal 3-bit code
(R80), each with its decoder and its encoder. -/

namespace Sys2Proof

/-- What one source byte is: an instruction, or a comment byte, rejected under that name (30_encoding.md R75). -/
inductive SourceByte where
  /-- One of the eight bytes of R73. -/
  | instruction (i : Instr)
  /-- One of the other 248: it encodes nothing, the loader drops it, and it is not an illegal instruction (R75). -/
  | comment
deriving DecidableEq, Repr

/-- The character-to-operation map of 30_encoding.md R73, byte values of R74 (ASCII, log 5). Total on any byte. -/
def classify (b : Byte) : SourceByte :=
  if b = 0x2B#8 then .instruction .add
  else if b = 0x2D#8 then .instruction .subtract
  else if b = 0x2C#8 then .instruction .read
  else if b = 0x2E#8 then .instruction .write
  else if b = 0x3C#8 then .instruction .left
  else if b = 0x3E#8 then .instruction .right
  else if b = 0x5B#8 then .instruction .loopStart
  else if b = 0x5D#8 then .instruction .loopEnd
  else .comment

/-- The source-byte decoder of 30_encoding.md R81: `Some(op)` for the eight bytes of R73, `None` for every other byte. -/
def decode (b : Byte) : Option Instr :=
  match classify b with
  | .instruction i => some i
  | .comment => none

/-- The encoder: the byte of an operation, written from the byte column of 30_encoding.md R73 (the inverse map of R83). -/
def encode : Instr → Byte
  | .add => 0x2B#8
  | .subtract => 0x2D#8
  | .read => 0x2C#8
  | .write => 0x2E#8
  | .left => 0x3C#8
  | .right => 0x3E#8
  | .loopStart => 0x5B#8
  | .loopEnd => 0x5D#8

/-- The loader's contract (30_encoding.md R76, R81): `prog = [op | b in s, decode(b) = Some(op)]`, in order. The contract is total
on bytes; a source that is not valid UTF-8 is refused at the load port (`Machine.loadBytes`; R82). -/
def loadSource : List Byte → Program
  | [] => []
  | b :: rest =>
    match decode b with
    | some i => i :: loadSource rest
    | none => loadSource rest

/-- What the bytes of a character read so far say: the whole character, or the beginning of one: how many bytes are still to
come, the range the next one must lie in, and the number so far. -/
inductive Utf8Part where
  | whole (c : Nat)
  | begun (more lo hi acc : Nat)
deriving DecidableEq, Repr

/-- The first byte of a UTF-8 character; none where no character begins so. PRESUMED: the well-formed byte sequences of UTF-8,
without overlong forms, surrogates or numbers past 0x10FFFF, are general knowledge, as 30_encoding.md R82 says (log 16). -/
def utf8Lead (b : Byte) : Option Utf8Part :=
  let n := b.toNat
  if n < 0x80 then some (.whole n)
  else if n < 0xC2 then none
  else if n < 0xE0 then some (.begun 1 0x80 0xBF (n - 0xC0))
  else if n = 0xE0 then some (.begun 2 0xA0 0xBF 0)
  else if n = 0xED then some (.begun 2 0x80 0x9F (n - 0xE0))
  else if n < 0xF0 then some (.begun 2 0x80 0xBF (n - 0xE0))
  else if n = 0xF0 then some (.begun 3 0x90 0xBF 0)
  else if n < 0xF4 then some (.begun 3 0x80 0xBF (n - 0xF0))
  else if n = 0xF4 then some (.begun 3 0x80 0x8F 4)
  else none

/-- The next byte of a character that has begun. -/
def utf8Next (more lo hi acc : Nat) (b : Byte) : Option Utf8Part :=
  if lo ≤ b.toNat ∧ b.toNat ≤ hi then
    if more = 1 then some (.whole (acc * 64 + (b.toNat - 0x80)))
    else some (.begun (more - 1) 0x80 0xBF (acc * 64 + (b.toNat - 0x80)))
  else none

/-- One more byte, at the start of a character or inside one. -/
def utf8Byte : Utf8Part → Byte → Option Utf8Part
  | .whole _, b => utf8Lead b
  | .begun more lo hi acc, b => utf8Next more lo hi acc b

/-- The characters of a source after the part already read; none where the source is not valid UTF-8, which includes one that
ends inside a character. -/
def utf8From : Utf8Part → List Byte → Option (List Nat)
  | .whole _, [] => some []
  | .begun _ _ _ _, [] => none
  | part, b :: rest =>
    match utf8Byte part b with
    | none => none
    | some (.whole c) => (utf8From (.whole c) rest).map (c :: ·)
    | some (.begun more lo hi acc) => utf8From (.begun more lo hi acc) rest

/-- The characters of a source, as numbers; none where it is not valid UTF-8. -/
def utf8Chars (src : List Byte) : Option (List Nat) := utf8From (.whole 0) src

/-- Is the source valid UTF-8? -/
def utf8Valid (src : List Byte) : Bool := (utf8Chars src).isSome

/-- The operation of a character: the char column of 30_encoding.md R73 (00_scope.md R19). -/
def decodeChar (c : Nat) : Option Instr :=
  if c = '+'.toNat then some .add
  else if c = '-'.toNat then some .subtract
  else if c = ','.toNat then some .read
  else if c = '.'.toNat then some .write
  else if c = '<'.toNat then some .left
  else if c = '>'.toNat then some .right
  else if c = '['.toNat then some .loopStart
  else if c = ']'.toNat then some .loopEnd
  else none

/-- The character-wise loader of 30_encoding.md R82; none where the source is not valid UTF-8. -/
def loadCharacters (src : List Byte) : Option Program := (utf8Chars src).map fun cs => cs.filterMap decodeChar

/-- The program as source bytes (30_encoding.md R83: what the debug rendering needs of the inverse map). -/
def render (p : Program) : List Byte := p.map encode

/-- The internal 3-bit code of an operation (30_encoding.md R80). -/
def encodeCode : Instr → BitVec 3
  | .add => 0b000#3
  | .subtract => 0b001#3
  | .read => 0b010#3
  | .write => 0b011#3
  | .left => 0b100#3
  | .right => 0b101#3
  | .loopStart => 0b110#3
  | .loopEnd => 0b111#3

/-- The operation of an internal code (30_encoding.md R80): all eight codes are used, so decoding is total (R77). -/
def decodeCode (c : BitVec 3) : Instr :=
  if c = 0b000#3 then .add
  else if c = 0b001#3 then .subtract
  else if c = 0b010#3 then .read
  else if c = 0b011#3 then .write
  else if c = 0b100#3 then .left
  else if c = 0b101#3 then .right
  else if c = 0b110#3 then .loopStart
  else .loopEnd

/-- The instruction the decoder reads from a table word of `nbits` bits: every instruction is one byte (30_encoding.md R71), so
the word is that byte, and a word with a bit above the byte is not one instruction. -/
def decodeTableWord (nbits w : Nat) : Option Instr :=
  if w % 2 ^ nbits < 256 then decode (BitVec.ofNat 8 (w % 2 ^ nbits)) else none

end Sys2Proof
end

