-- ==== Sys2Proof/Machine/Ports.lean ====
section
/-! DEFINITION. The engine's interfaces to the host (60_exceptions.md R172 to R178): the step port's answer, the program-load
port, the host's late answers to a waiting request, and the read-only debug port. -/

namespace Sys2Proof.Machine

/-- The engine's answer to a step request (60_exceptions.md R176, 40_execution_cycle.md R90). -/
inductive StepReply where
  /-- `Continue(true)`: the run goes on; `Continue(false)`: no more operations. -/
  | cont (more : Bool)
  /-- `Fault(kind, sub, pos)`. -/
  | fault (f : FaultRecord)
deriving DecidableEq, Repr

/-- The reply of the step that has just ended in this state, "determined after all its writes" (00_scope.md R16): the fault it
raised, else `Continue(ip < N)` on the updated ip (40_execution_cycle.md R91, R98); none while it waits at a port (R178). -/
def stepReply (t : State) : Option StepReply :=
  match t.status with
  | .faulted f => some (.fault f)
  | .running =>
    match t.wait with
    | some _ => none
    | none => some (.cont (decide (t.ip < t.prog.length)))

/-- The program-load port (60_exceptions.md R175, 70_reset_and_hazards.md R190, R197): a new engine of the given realisation
with the operation sequence in its program store. Loading is part of reset; no other operation writes `prog`. -/
def loadProgram (r : Realisation) (p : Program) : State := { State.reset with prog := p, realisation := r }

/-- Reset with a program given as a source text, through the loader's contract (30_encoding.md R81). What a loader does with a
source that is not valid UTF-8 is not in the source (R82, N9); 93_implementation_defined.md has a model refuse it. -/
def loadBytes (r : Realisation) (src : List Byte) : Host.Outcome State Fault Refusal :=
  if utf8Valid src then .next (loadProgram r (loadSource src)) else .refused .notUtf8

/-- The operation stored at the next fetch, for a host that writes the program store before the first step: the slots before
`ip`, the loaded operations, and the slots after (log 1). Missing slots below `ip` take the first loaded operation. -/
def storeAtFetch (ops : Program) (s : State) : Program :=
  match ops with
  | [] => s.prog
  | i :: _ => (s.prog ++ List.replicate (s.ip - s.prog.length) i).take s.ip ++ ops ++ s.prog.drop (s.ip + ops.length)

/-- The host's answer to an input request that the engine waits in. The host never answers "a port request the engine did not
issue" (60_exceptions.md R181), and a request has one answer (R173): none where no input request waits, and none where the one
that waits has its answer already. -/
def answerInput (a : InAnswer) (s : State) : Option State :=
  match s.wait, s.ports.inAnswers with
  | some .input, [] => some { s with ports := { s.ports with inAnswers := [a] } }
  | some .input, _ :: _ => none
  | some (.output _), _ => none
  | none, _ => none

/-- The host's answer to an output request that the engine waits in and that has no answer yet (60_exceptions.md R174, R181). -/
def answerOutput (a : OutAnswer) (s : State) : Option State :=
  match s.wait, s.ports.outAnswers with
  | some (.output _), [] => some { s with ports := { s.ports with outAnswers := [a] } }
  | some (.output _), _ :: _ => none
  | some .input, _ => none
  | none, _ => none

/-- The snapshot of the debug port (60_exceptions.md R177): every field of 10_state.md R21, the tape as the spec's sequence. -/
structure Snapshot where
  tape : List Byte
  head : Nat
  prog : Program
  ip : Nat
  lstack : List Nat
  mode : Mode
  status : Status
deriving DecidableEq, Repr

/-- A debug read of everything: a function of the state, so it has no side effect (60_exceptions.md R177). The spec has the host
read between steps (20_memory.md R58, R177). DESIGN CHOICE: in a state that waits inside a step it gives the fields as they were
before that step, without looking at `wait` (log 14). -/
def snapshot (s : State) : Snapshot :=
  { tape := s.tape.toList, head := s.head, prog := s.prog, ip := s.ip, lstack := s.lstack, mode := s.mode, status := s.status }

/-- "remaining program text" (60_exceptions.md R177, 30_encoding.md R83), as source bytes; the layout of the rendering is out of
scope (00_scope.md R5). DESIGN CHOICE: the spec does not say where the remaining text starts (N14), and the model starts it at the
operation that `ip` names (log 14). -/
def remainingText (s : State) : List Byte := render (s.prog.drop s.ip)

/-- The registers of the map of 10_state.md R35, by name: none has a numeric address. -/
inductive DebugReg where
  | ip | head | tapeCells | lstackEntries | modeSkipping | modeOrigin
  | statusFaulted | statusKind | statusSub | statusPos | progOps
deriving DecidableEq, Repr

/-- What a debug read gives, at the widths of 10_state.md R35. -/
inductive DebugValue where
  | number (n : Nat)
  | bit (b : BitVec 1)
  | kind (k : BitVec 3)
  | sub (k : BitVec 2)
  | cells (l : List Byte)
  | entries (l : List Nat)
  | ops (l : List (BitVec 3))
deriving DecidableEq, Repr

/-- The kind codes of 60_exceptions.md R161; 0, 6 and 7 are never written. -/
def FaultKind.code : FaultKind → BitVec 3
  | .unmatchedLoopEnd => 1#3
  | .inputFailure => 2#3
  | .outputFailure => 3#3
  | .tapeCapacityExceeded => 4#3
  | .loopStackOverflow => 5#3

/-- The sub codes of 60_exceptions.md R161; 3 is never written. -/
def SubCause.code : SubCause → BitVec 2
  | .none => 0#2
  | .exhausted => 1#2
  | .channelError => 2#2

/-- A debug read of a field of the fault record: refused while Running (70_reset_and_hazards.md R196). -/
def readFaultField (s : State) (field : FaultRecord → DebugValue) : Host.Outcome DebugValue Fault Refusal :=
  match s.status with
  | .running => .refused .unspecifiedField
  | .faulted f => .next (field f)

/-- A debug read of one register of 10_state.md R35. MODE.origin in Normal mode and the fault fields while Running are
unspecified and refused (93_implementation_defined.md). DESIGN CHOICE: a read in a state that waits inside a step, which the spec
does not give (20_memory.md R58, R177), answers with the fields as they were before that step (log 14). -/
def debugRead (r : DebugReg) (s : State) : Host.Outcome DebugValue Fault Refusal :=
  match r with
  | .ip => .next (.number s.ip)
  | .head => .next (.number s.head)
  | .tapeCells => .next (.cells s.tape.toList)
  | .lstackEntries => .next (.entries s.lstack)
  | .modeSkipping =>
    match s.mode with
    | .normal => .next (.bit 0#1)
    | .skipping _ => .next (.bit 1#1)
  | .modeOrigin =>
    match s.mode with
    | .normal => .refused .unspecifiedField
    | .skipping o => .next (.number o)
  | .statusFaulted =>
    match s.status with
    | .running => .next (.bit 0#1)
    | .faulted _ => .next (.bit 1#1)
  | .statusKind => readFaultField s fun f => .kind f.kind.code
  | .statusSub => readFaultField s fun f => .sub f.sub.code
  | .statusPos => readFaultField s fun f => .number f.pos
  | .progOps => .next (.ops (s.prog.map encodeCode))

end Sys2Proof.Machine
end

