-- ==== Sys2Proof/Machine/Step.lean ====
section
/-! DEFINITION. The step (40_execution_cycle.md R90 to R99) and the placing of an instruction where it fetches. -/

namespace Sys2Proof.Machine

/-- One step: refused after a fault (40_execution_cycle.md R92); the end check (R91) writes nothing; else exactly one operation
is fetched (R93) and executed in the current mode (R94). -/
def step (s : State) : Host.Outcome State Fault Refusal :=
  match s.status with
  | .faulted _ => .refused .stepAfterFault
  | .running =>
    match s.fetch with
    | none => .next s
    | some i => exec i s

/-- The table word loaded into the program store at `ip`: its byte goes through the loader (30_encoding.md R81), so a comment
byte stores nothing. `nbits` does not matter: every instruction is one byte, and the bits above are 0 (log 1). -/
def State.withFetchWord (s : State) (_nbits w : Nat) : State :=
  { s with prog := storeAtFetch (loadSource [BitVec.ofNat 8 w]) s }

end Sys2Proof.Machine
end

