-- ==== Sys2Proof/Safety.lean ====
section
/-! DEFINITION. What counts as a legal state and a safe run, in the terms claims use: the invariants of 10_state.md R36 to R41,
the bracket structure of 40_execution_cycle.md R105, and the run outcomes of R102, R103. -/

namespace Sys2Proof.Machine

/-- The origin of a skip, if one is on. -/
def Mode.origin? : Mode → Option Nat
  | .normal => none
  | .skipping o => some o

/-- The fault record, if a fault has ended the run. -/
def Status.record? : Status → Option FaultRecord
  | .running => none
  | .faulted f => some f

/-- 10_state.md R37: `len(tape) >= 1` and `head < len(tape)`, on a tape in canonical form. -/
abbrev TapeInv (s : State) : Prop := s.tape.wf ∧ s.head < s.tape.len

/-- 10_state.md R38: `ip <= N`. -/
abbrev PointerInv (s : State) : Prop := s.ip ≤ s.prog.length

/-- 10_state.md R39: entries strictly increasing, each below ip, each the position of a LoopStart. -/
abbrev StackInv (s : State) : Prop :=
  s.lstack.Pairwise (· < ·) ∧ ∀ e ∈ s.lstack, e < s.ip ∧ s.prog[e]? = some .loopStart

/-- 10_state.md R40 (a), (c), (d) as facts of one state: the origin is an entry of the stack (so (c) follows from R39) and the
cell under the head is 0. Part (b) is about how entries came to be there. -/
abbrev SkipInv (s : State) : Prop := ∀ o ∈ s.mode.origin?, o ∈ s.lstack ∧ s.cell? = some 0x00#8

/-- Which fault an operation can raise (60_exceptions.md R162 to R164, R167; R182 for a finite realisation). -/
def canRaise : Instr → FaultKind → Bool
  | .loopEnd, .unmatchedLoopEnd => true
  | .read, .inputFailure => true
  | .write, .outputFailure => true
  | .left, .tapeCapacityExceeded => true
  | .right, .tapeCapacityExceeded => true
  | .loopStart, .loopStackOverflow => true
  | _, _ => false

/-- 60_exceptions.md R161, R165, R167: a fault record names the ip, which still names an operation that can raise that kind. -/
abbrev StatusInv (s : State) : Prop :=
  ∀ f ∈ s.status.record?, f.pos = s.ip ∧ ∃ i ∈ s.prog[s.ip]?, canRaise i f.kind = true

/-- 60_exceptions.md R173, R174, R178: the engine waits only while Running, only in a Normal-mode Read or Write, for the request
that operation makes. -/
abbrev WaitInv (s : State) : Prop :=
  ∀ r ∈ s.wait, s.status = .running ∧ s.mode = .normal ∧
    (r = .input ∧ s.fetch = some .read ∨
     ∃ c ∈ s.cell?, r = .output c ∧ s.fetch = some .write)

/-- 60_exceptions.md R182: the tape and the loop stack never pass the bounds of a finite realisation. -/
abbrev CapacityInv (s : State) : Prop :=
  (∀ m ∈ s.realisation.maxTapeCells, s.tape.len ≤ m) ∧ (∀ m ∈ s.realisation.maxLoopDepth, s.lstack.length ≤ m)

/-- The engine's invariant: 10_state.md R36, with the facts of a faulted, a waiting and a finite engine. -/
structure EngineInv (s : State) : Prop where
  tape : TapeInv s
  pointer : PointerInv s
  stack : StackInv s
  skip : SkipInv s
  status : StatusInv s
  wait : WaitInv s
  capacity : CapacityInv s

/-- No bound on the tape or the loop stack: the normative model (00_scope.md R8 to R10). -/
abbrev Unbounded (s : State) : Prop :=
  s.realisation.maxTapeCells = none ∧ s.realisation.maxLoopDepth = none

/-- The brackets still open after the operations of a list, the first at position `n`, over the open ones `st` (bottom first):
none if some LoopEnd has no open LoopStart. This is parenthesis matching of the text, without running anything. -/
def openFrom : Nat → List Nat → Program → Option (List Nat)
  | _, st, [] => some st
  | n, st, .loopStart :: rest => openFrom (n + 1) (st ++ [n]) rest
  | n, st, .loopEnd :: rest => if st = [] then none else openFrom (n + 1) st.dropLast rest
  | n, st, .add :: rest => openFrom (n + 1) st rest
  | n, st, .subtract :: rest => openFrom (n + 1) st rest
  | n, st, .read :: rest => openFrom (n + 1) st rest
  | n, st, .write :: rest => openFrom (n + 1) st rest
  | n, st, .left :: rest => openFrom (n + 1) st rest
  | n, st, .right :: rest => openFrom (n + 1) st rest

/-- The LoopStarts left open by the text before position `k`. -/
def openBefore (p : Program) (k : Nat) : Option (List Nat) := openFrom 0 [] (p.take k)

/-- The loop stack is what the text says is open before ip (40_execution_cycle.md R105). -/
abbrev BracketInv (s : State) : Prop := openBefore s.prog s.ip = some s.lstack

/-- The cell at a distance `d` from the head, 0 where no cell is materialized (10_state.md R25, R26). -/
def cellAt (s : State) (d : Int) : Byte :=
  if 0 ≤ (s.head : Int) + d then (s.tape.read? ((s.head : Int) + d).toNat).getD 0x00#8 else 0x00#8

/-- Two states that differ at most in which cells are materialized: the same cell at every distance from the head, and every
other field equal (10_state.md R25). -/
def SameButGrowth (s t : State) : Prop :=
  t = { s with tape := t.tape, head := t.head } ∧ ∀ d : Int, cellAt s d = cellAt t d

/-- How many LoopStarts a program has (10_state.md R44). -/
def loopStartCount (p : Program) : Nat := p.countP (· = .loopStart)

/-- `k` operations of one kind, executed one after the other. -/
def execTimes (i : Instr) : Nat → State → Host.Outcome State Fault Refusal
  | 0, s => .next s
  | k + 1, s =>
    match exec i s with
    | .next t => execTimes i k t
    | .fault r => .fault r
    | .refused r => .refused r

/-- Operations executed one after the other. -/
def execAll : List Instr → State → Host.Outcome State Fault Refusal
  | [], s => .next s
  | i :: rest, s =>
    match exec i s with
    | .next t => execAll rest t
    | .fault r => .fault r
    | .refused r => .refused r

/-- `k` step requests one after the other, whatever the replies. -/
def stepTimes : Nat → State → Host.Outcome State Fault Refusal
  | 0, s => .next s
  | k + 1, s =>
    match step s with
    | .next t => stepTimes k t
    | .fault r => .fault r
    | .refused r => .refused r

/-- The driver loop (40_execution_cycle.md R102) for at most `n` step requests, under a host that gives no answer beyond those
that State already holds: the host requests a step while the last reply was Continue(true). -/
def drive : Nat → State → Host.Outcome State Fault Refusal
  | 0, s => .next s
  | n + 1, s =>
    match step s with
    | .next t => if stepReply t = some (.cont true) then drive n t else .next t
    | .fault r => .fault r
    | .refused r => .refused r

/-- All the answers a host gives after those that State already holds: an endless sequence of draws for each port
(60_exceptions.md R173, R174; 92_eei_decisions.md D9, D10), with `none` at a request that is never answered (R178). It is no part of
State: a run is under a host (log 2). -/
structure HostAnswers where
  /-- The answer to the `k`-th input request. -/
  input : Nat → Option InAnswer
  /-- The answer to the `k`-th output request. -/
  output : Nat → Option OutAnswer

/-- The host that never answers. -/
def HostAnswers.silent : HostAnswers := { input := fun _ => none, output := fun _ => none }

/-- The host answers the request a step waits in: the answers it still has, and the engine with the answer. None where no
request waits, or where this one is never answered. -/
def HostAnswers.respond (h : HostAnswers) (s : State) : Option (HostAnswers × State) :=
  match s.wait with
  | none => none
  | some .input =>
    match h.input 0 with
    | none => none
    | some a => (answerInput a s).map fun t => ({ h with input := fun k => h.input (k + 1) }, t)
  | some (.output _) =>
    match h.output 0 with
    | none => none
    | some a => (answerOutput a s).map fun t => ({ h with output := fun k => h.output (k + 1) }, t)

/-- One step of 40_execution_cycle.md R90 under a host: if it waits and the host answers, the same step goes on with the answer
(60_exceptions.md R178). It makes at most one request, so one answer ends it. -/
def hostedStep (h : HostAnswers) (s : State) : Host.Outcome (HostAnswers × State) Fault Refusal :=
  match step s with
  | .next t =>
    match h.respond t with
    | none => .next (h, t)
    | some (h', u) =>
      match step u with
      | .next v => .next (h', v)
      | .fault r => .fault r
      | .refused r => .refused r
  | .fault r => .fault r
  | .refused r => .refused r

/-- The driver loop (40_execution_cycle.md R102) for at most `n` steps under a host. -/
def hostedRun : Nat → HostAnswers → State → Host.Outcome State Fault Refusal
  | 0, _, s => .next s
  | n + 1, h, s =>
    match hostedStep h s with
    | .next (h', t) => if stepReply t = some (.cont true) then hostedRun n h' t else .next t
    | .fault r => .fault r
    | .refused r => .refused r

/-- 40_execution_cycle.md R103 (a): "some step returns `Continue(false)`". -/
def Completes (h : HostAnswers) (s : State) : Prop :=
  ∃ n t, hostedRun (n + 1) h s = .next t ∧ stepReply t = some (.cont false)

/-- 40_execution_cycle.md R103 (b): "some step faults with record `f`". -/
def FaultsWith (h : HostAnswers) (s : State) (f : FaultRecord) : Prop :=
  ∃ n t, hostedRun (n + 1) h s = .next t ∧ stepReply t = some (.fault f)

/-- 40_execution_cycle.md R103 (c): "every step returns `Continue(true)` forever". A run may do I/O for ever: the host has an
answer for every request. -/
def Diverges (h : HostAnswers) (s : State) : Prop :=
  ∀ n, ∃ t, hostedRun (n + 1) h s = .next t ∧ stepReply t = some (.cont true)

/-- 40_execution_cycle.md R103 (d): "a step's port transaction is never answered": some step ends in a wait that the host does
not answer. -/
def Blocks (h : HostAnswers) (s : State) : Prop := ∃ n t, hostedRun (n + 1) h s = .next t ∧ stepReply t = none

end Sys2Proof.Machine
end

