-- ==== Sys2Proof/Safety/Pseudocode.lean ====
section
/-! DEFINITION. The step as the pseudocode of 40_execution_cycle.md R99, written apart from the machine and over any
representation of the tape, so that claims can compare the machine with it: the sequence of R21 and the total function of R25. -/

namespace Sys2Proof.Machine

/-- What the pseudocode does with a tape (00_scope.md R13; 42_head_ops.md R120, R121). -/
structure TapeModel (τ : Type) where
  cell : τ → Byte
  setCell : Byte → τ → τ
  right : τ → τ
  left : τ → τ

/-- The tape as "an ordered sequence of Cells plus a head index into that sequence" (10_state.md R23), with the growth of
42_head_ops.md R120, R121 as written there. -/
def sequenceTape : TapeModel (List Byte × Nat) where
  cell t := t.1.getD t.2 0x00#8
  setCell v t := (t.1.set t.2 v, t.2)
  right t := (if t.2 + 1 ≥ t.1.length then t.1 ++ [0x00#8] else t.1, t.2 + 1)
  left t := if t.2 = 0 then (0x00#8 :: t.1, t.2 + 1 - 1) else (t.1, t.2 - 1)

/-- The tape as "a total function `T : Int -> Byte`" with "an abstract head position `h : Int`", where "Left is `h <- h - 1` and
Right is `h <- h + 1`, with no growth" (10_state.md R25). -/
def functionTape : TapeModel ((Int → Byte) × Int) where
  cell t := t.1 t.2
  setCell v t := (fun q => if q = t.2 then v else t.1 q, t.2)
  right t := (t.1, t.2 + 1)
  left t := (t.1, t.2 - 1)

/-- What Add, Subtract, Left and Right do to a tape in Normal mode (R99); the other four leave it alone here. -/
def tapeEffect {τ : Type} (T : TapeModel τ) (t : τ) : Instr → τ
  | .add => T.setCell (BitVec.ofNat 8 (((T.cell t).toNat + 1) % 256)) t
  | .subtract => T.setCell (BitVec.ofNat 8 (((T.cell t).toNat + 255) % 256)) t
  | .left => T.left t
  | .right => T.right t
  | .read => t
  | .write => t
  | .loopStart => t
  | .loopEnd => t

/-- The state of the pseudocode: the fields of 10_state.md R21 over a tape `τ`, and the host's ports. -/
structure Pseudo (τ : Type) where
  tape : τ
  prog : Program
  ip : Nat
  lstack : List Nat
  mode : Mode
  status : Status
  ports : Ports

/-- How a body of R99 ends. -/
inductive BodyEnd (τ : Type) where
  /-- `jumped` is false: the advance follows. -/
  | fell (p : Pseudo τ)
  /-- `jumped` is true. -/
  | jumped (p : Pseudo τ)
  /-- `raise Fault(kind, sub, ip)`, over the ports after the transaction that was answered. -/
  | raised (kind : FaultKind) (sub : SubCause) (ports : Ports)
  /-- A port request that the host has not answered. -/
  | waits

/-- The bodies of R99, line by line. -/
def pseudoBody {τ : Type} (T : TapeModel τ) (op : Instr) (p : Pseudo τ) : BodyEnd τ :=
  match p.mode, op with
  | .normal, .add => .fell { p with tape := T.setCell (BitVec.ofNat 8 (((T.cell p.tape).toNat + 1) % 256)) p.tape }
  | .normal, .subtract => .fell { p with tape := T.setCell (BitVec.ofNat 8 (((T.cell p.tape).toNat + 255) % 256)) p.tape }
  | .normal, .right => .fell { p with tape := T.right p.tape }
  | .normal, .left => .fell { p with tape := T.left p.tape }
  | .normal, .read =>
    match p.ports.inAnswers with
    | [] => .waits
    | .byte b :: rest =>
      .fell { p with tape := T.setCell b p.tape, ports := { p.ports with inAnswers := rest, inStream := p.ports.inStream ++ [b] } }
    | .exhausted :: rest => .raised .inputFailure .exhausted { p.ports with inAnswers := rest }
    | .error :: rest => .raised .inputFailure .channelError { p.ports with inAnswers := rest }
  | .normal, .write =>
    match p.ports.outAnswers with
    | [] => .waits
    | .ok :: rest =>
      .fell { p with ports := { p.ports with outAnswers := rest, outStream := p.ports.outStream ++ [T.cell p.tape] } }
    | .error :: rest => .raised .outputFailure .channelError { p.ports with outAnswers := rest }
  | .normal, .loopStart =>
    .fell { p with
      lstack := p.lstack ++ [p.ip]
      mode := if T.cell p.tape = 0x00#8 then .skipping p.ip else .normal }
  | .normal, .loopEnd =>
    match p.lstack.getLast? with
    | none => .raised .unmatchedLoopEnd .none p.ports
    | some q =>
      if T.cell p.tape ≠ 0x00#8 then .jumped { p with lstack := p.lstack.dropLast, ip := q }
      else .fell { p with lstack := p.lstack.dropLast }
  | .skipping _, .loopStart => .fell { p with lstack := p.lstack ++ [p.ip] }
  | .skipping o, .loopEnd =>
    match p.lstack.getLast? with
    | none => .raised .unmatchedLoopEnd .none p.ports
    | some q => .fell { p with lstack := p.lstack.dropLast, mode := if q = o then .normal else .skipping o }
  | .skipping _, .add => .fell p
  | .skipping _, .subtract => .fell p
  | .skipping _, .read => .fell p
  | .skipping _, .write => .fell p
  | .skipping _, .left => .fell p
  | .skipping _, .right => .fell p

/-- How a step request of R99 ends. -/
inductive PseudoStep (τ : Type) where
  /-- A reply to the host and the state after. -/
  | replies (r : StepReply) (p : Pseudo τ)
  /-- The step waits for the host. -/
  | waits
  /-- `require status = Running` fails: no transition. -/
  | noTransition

/-- The step of R99: the end check, the fetch, the body, the advance unless jumped, the reply. -/
def pseudoStep {τ : Type} (T : TapeModel τ) (p : Pseudo τ) : PseudoStep τ :=
  match p.status with
  | .faulted _ => .noTransition
  | .running =>
    match p.prog[p.ip]? with
    | none => .replies (.cont false) p
    | some op =>
      match pseudoBody T op p with
      | .fell q => .replies (.cont (decide (q.ip + 1 < q.prog.length))) { q with ip := q.ip + 1 }
      | .jumped q => .replies (.cont (decide (q.ip < q.prog.length))) q
      | .raised kind sub ports =>
        .replies (.fault { kind := kind, sub := sub, pos := p.ip })
          { p with status := .faulted { kind := kind, sub := sub, pos := p.ip }, ports := ports }
      | .waits => .waits

/-- The machine's state as a state of the pseudocode, over a given tape. -/
def State.over {τ : Type} (s : State) (tape : τ) : Pseudo τ :=
  { tape := tape, prog := s.prog, ip := s.ip, lstack := s.lstack, mode := s.mode, status := s.status, ports := s.ports }

/-- The machine's state over the spec's sequence tape. -/
def State.asSequence (s : State) : Pseudo (List Byte × Nat) := s.over (s.tape.toList, s.head)

/-- The machine's state and a state over the total-function tape say the same (10_state.md R25): equal fields, and the same cell
at every distance from the head. -/
def SameAsFunction (s : State) (p : Pseudo ((Int → Byte) × Int)) : Prop :=
  p = s.over p.tape ∧ ∀ d : Int, cellAt s d = p.tape.1 (p.tape.2 + d)

end Sys2Proof.Machine
end

