-- ==== Sys2Proof/Certificates/Slice0/Obligations.lean ====
section
/-! DEFINITION. The statements for the provers. Each docstring names the rule of spec/ it formalises; where a clause is the
spec's own inference or decision, or the model's choice, the docstring says so. -/

open Sys2Proof Sys2Proof.Machine

/-! ## Encoding -/

/-- 30_encoding.md R73, R74 (the map and the byte values are the spec's own inference, log 5): the eight bytes, written out bit
by bit from the table's bits column, decode to their operations. -/
def Obligations.EightSourceBytesDecode : Prop :=
  decode 0b00101011#8 = some .add ∧ decode 0b00101101#8 = some .subtract ∧ decode 0b00101100#8 = some .read ∧
  decode 0b00101110#8 = some .write ∧ decode 0b00111100#8 = some .left ∧ decode 0b00111110#8 = some .right ∧
  decode 0b01011011#8 = some .loopStart ∧ decode 0b01011101#8 = some .loopEnd

/-- 30_encoding.md R75: every byte other than the eight encodes no instruction: wherever it stands in the source, it occupies no
program slot. -/
def Obligations.OtherBytesOccupyNoSlot : Prop :=
  ∀ b : Byte, b ∉ [0x2B#8, 0x2D#8, 0x2C#8, 0x2E#8, 0x3C#8, 0x3E#8, 0x5B#8, 0x5D#8] →
    decode b = none ∧ ∀ before after : List Byte, loadSource (before ++ b :: after) = loadSource (before ++ after)

/-- 30_encoding.md R80 (the code is the spec's choice, D6) and R77: all eight codes are used, no two operations share one, and
decoding and encoding agree. -/
def Obligations.InternalCodeIsABijection : Prop :=
  (∀ i : Instr, decodeCode (encodeCode i) = i) ∧ (∀ c : BitVec 3, encodeCode (decodeCode c) = c)

/-- 30_encoding.md R83 (derived there): "Rendering a program gives back the recognised bytes of its source, with the comment
bytes dropped", and loading a rendered program gives the program back: decode and encode agree for every program. -/
def Obligations.LoadAndRenderAgree : Prop :=
  (∀ p : Program, loadSource (render p) = p) ∧
  (∀ src : List Byte,
    render (loadSource src) =
      src.filter (fun b => decide (b ∈ [0x2B#8, 0x2D#8, 0x2C#8, 0x2E#8, 0x3C#8, 0x3E#8, 0x5B#8, 0x5D#8])))

/-- 30_encoding.md R76 (derived there): `N` is the number of recognised bytes, and position `i` is the `i`-th recognised byte. -/
def Obligations.PositionsCountRecognisedBytes : Prop :=
  (∀ src : List Byte, (loadSource src).length = src.countP (fun b => (decode b).isSome)) ∧
  (∀ (before after : List Byte) (b : Byte) (i : Instr), decode b = some i →
    (loadSource (before ++ b :: after))[before.countP (fun c => (decode c).isSome)]? = some i)

/-! ## The step -/

/-- 40_execution_cycle.md R93: while Running and `ip < N`, the step reads `Fetch(ip)` and executes exactly that operation: when
the source byte that stands at the program position `ip` decodes to `i`, the step is the meaning of `i`. -/
def Obligations.StepRunsTheFetchedOperation : Prop :=
  (∀ (s : State) (i : Instr), s.status = .running → s.prog[s.ip]? = some i → step s = exec i s) ∧
  (∀ (s : State) (before after : List Byte) (b : Byte) (i : Instr),
    s.status = .running → s.prog = loadSource (before ++ b :: after) → s.ip = (loadSource before).length →
    decode b = some i → step s = exec i s)

/-- 40_execution_cycle.md R91: if `ip >= N`, the step returns `Continue(false)` and writes nothing. -/
def Obligations.EndCheckWritesNothing : Prop :=
  ∀ s : State, s.status = .running → WaitInv s → s.ip ≥ s.prog.length →
    step s = .next s ∧ stepReply s = some (.cont false)

/-- 40_execution_cycle.md R102: a step requested again after `Continue(false)`, however often, changes nothing (so its reply,
which the state after it fixes, is `Continue(false)` again). -/
def Obligations.StepAfterCompletionIsHarmless : Prop :=
  ∀ s t : State, step s = .next t → stepReply t = some (.cont false) →
    ∀ n, stepTimes n t = .next t

/-- 40_execution_cycle.md R92 (the spec's decision D5): a step request in the Faulted status is refused. -/
def Obligations.StepAfterFaultIsRefused : Prop :=
  ∀ (s : State) (f : FaultRecord), s.status = .faulted f → step s = .refused .stepAfterFault

/-- 40_execution_cycle.md R97: unless a backward jump was taken, the ip advances by one; the only body that jumps is the
Normal-mode LoopEnd with a nonzero guard, and then the ip is the popped position; a faulting body ends before the advance. (A
step that waits at a port has not ended: `t.wait` is then a request.) -/
def Obligations.AdvanceUnlessJumpedOrFaulted : Prop :=
  ∀ (s t : State) (i : Instr), s.status = .running → exec i s = .next t →
    (t.status = .running → t.wait = none →
      (i = .loopEnd ∧ s.mode = .normal ∧ s.cell? ≠ some 0x00#8 ∧ s.lstack.getLast? = some t.ip) ∨
      (¬ (i = .loopEnd ∧ s.mode = .normal ∧ s.cell? ≠ some 0x00#8) ∧ t.ip = s.ip + 1)) ∧
    (t.status ≠ .running → t.ip = s.ip)

/-- 40_execution_cycle.md R98: a step that neither faulted nor took the end check returns `Continue(ip < N)` on the updated ip;
after a backward jump that is `Continue(true)`, after the last operation without a jump `Continue(false)`. -/
def Obligations.ReplyIsWhetherIpIsInside : Prop :=
  ∀ (s t : State) (i : Instr), EngineInv s → s.fetch = some i → step s = .next t → t.status = .running → t.wait = none →
    stepReply t = some (.cont (decide (t.ip < s.prog.length))) ∧
    (i = .loopEnd → s.mode = .normal → s.cell? ≠ some 0x00#8 → stepReply t = some (.cont true)) ∧
    (¬ (i = .loopEnd ∧ s.mode = .normal ∧ s.cell? ≠ some 0x00#8) → s.ip + 1 = s.prog.length →
      stepReply t = some (.cont false))

/-! ## Reset and load -/

/-- 70_reset_and_hazards.md R191, R192: at reset the tape is one cell holding 0 and the head is 0, in every realisation and with
every program. -/
def Obligations.ResetTapeIsOneZeroCell : Prop :=
  State.reset.tape.toList = [0x00#8] ∧ State.reset.head = 0 ∧
  ∀ (r : Realisation) (p : Program), (loadProgram r p).tape.toList = [0x00#8] ∧ (loadProgram r p).head = 0

/-- 70_reset_and_hazards.md R193 to R197 (the ip, the loop stack, the mode and the status at reset are the spec's decisions D2,
D3, D5): ip 0, empty loop stack, Normal, Running, and the program store holds the loaded operations. A source text is loaded by
R81's contract; one that is not valid UTF-8 is refused, as 93_implementation_defined.md says (log 16). -/
def Obligations.ResetRegistersAsDecided : Prop :=
  (∀ (r : Realisation) (p : Program),
    (loadProgram r p).ip = 0 ∧ (loadProgram r p).lstack = [] ∧ (loadProgram r p).mode = .normal ∧
    (loadProgram r p).status = .running ∧ (loadProgram r p).prog = p) ∧
  (∀ (r : Realisation) (src : List Byte),
    (utf8Valid src = true → loadBytes r src = .next (loadProgram r (src.filterMap decode))) ∧
    (utf8Valid src = false → loadBytes r src = .refused .notUtf8))

/-- 60_exceptions.md R175 and log 1 (the model's choice): writing the byte of an operation into the program store makes it the
operation the next step fetches and changes no other field. -/
def Obligations.FetchWordIsFetched : Prop :=
  ∀ (s : State) (i : Instr), s.ip ≤ s.prog.length →
    (s.withFetchWord 8 (encode i).toNat).fetch = some i ∧
    s.withFetchWord 8 (encode i).toNat = { s with prog := (s.withFetchWord 8 (encode i).toNat).prog } ∧
    ∀ k, k ≠ s.ip → k < s.prog.length → (s.withFetchWord 8 (encode i).toNat).prog[k]? = s.prog[k]?

/-- 10_state.md R36 (derived there): the invariant holds after reset, with every program that fits the realisation, and so does
the bracket invariant. -/
def Obligations.InvariantsHoldAtReset : Prop :=
  ∀ (r : Realisation) (p : Program), r.wf p = true →
    EngineInv (loadProgram r p) ∧ BracketInv (loadProgram r p)

/-! ## The eight operations -/

/-- 41_cell_ops.md R110: Add. -/
def Obligations.AddIncrementsTheCell : Prop :=
  encode .add = 0x2B#8 ∧ encodeCode .add = 0b000#3 ∧
  (∀ s : State, TapeInv s → s.mode = .normal →
    ∃ b t, s.tape.toList[s.head]? = some b ∧ exec .add s = .next t ∧
      t.tape.toList = s.tape.toList.set s.head (BitVec.ofNat 8 ((b.toNat + 1) % 256)) ∧
      (∀ a, a ≠ s.head → t.tape.read? a = s.tape.read? a) ∧
      t = { s with tape := t.tape, ip := s.ip + 1 }) ∧
  (∀ (s : State) (o : Nat), s.mode = .skipping o → exec .add s = .next { s with ip := s.ip + 1 })

/-- 41_cell_ops.md R111: Subtract. -/
def Obligations.SubtractDecrementsTheCell : Prop :=
  encode .subtract = 0x2D#8 ∧ encodeCode .subtract = 0b001#3 ∧
  (∀ s : State, TapeInv s → s.mode = .normal →
    ∃ b t, s.tape.toList[s.head]? = some b ∧ exec .subtract s = .next t ∧
      t.tape.toList = s.tape.toList.set s.head (BitVec.ofNat 8 ((b.toNat + 255) % 256)) ∧
      (∀ a, a ≠ s.head → t.tape.read? a = s.tape.read? a) ∧
      t = { s with tape := t.tape, ip := s.ip + 1 }) ∧
  (∀ (s : State) (o : Nat), s.mode = .skipping o → exec .subtract s = .next { s with ip := s.ip + 1 })

/-- 42_head_ops.md R120: Right. In a finite realisation it completes while the cell it needs fits (R182; the fault is stated
below). -/
def Obligations.RightMovesTheHead : Prop :=
  encode .right = 0x3E#8 ∧ encodeCode .right = 0b101#3 ∧
  (∀ s : State, TapeInv s → s.mode = .normal →
    (s.head + 1 = s.tape.len → ∀ m ∈ s.realisation.maxTapeCells, s.tape.len + 1 ≤ m) →
    ∃ t, exec .right s = .next t ∧ t.head = s.head + 1 ∧
      t.tape.toList =
        (if s.head + 1 ≥ s.tape.toList.length then s.tape.toList ++ [0x00#8] else s.tape.toList) ∧
      (∀ a, a < s.tape.len → t.tape.read? a = s.tape.read? a) ∧
      t = { s with tape := t.tape, head := s.head + 1, ip := s.ip + 1 }) ∧
  (∀ (s : State) (o : Nat), s.mode = .skipping o → exec .right s = .next { s with ip := s.ip + 1 })

/-- 42_head_ops.md R121: Left. At index 0 a zero cell is prepended, the head stays at index 0 and every existing index goes up
by one; elsewhere only the head moves. In a finite realisation it completes while the cell it needs fits (R182). -/
def Obligations.LeftMovesTheHead : Prop :=
  encode .left = 0x3C#8 ∧ encodeCode .left = 0b100#3 ∧
  (∀ s : State, TapeInv s → s.mode = .normal →
    (s.head = 0 → ∀ m ∈ s.realisation.maxTapeCells, s.tape.len + 1 ≤ m) →
    ∃ t, exec .left s = .next t ∧
      (s.head = 0 → t.head = 0 ∧ t.tape.toList = 0x00#8 :: s.tape.toList ∧
        ∀ a, t.tape.read? (a + 1) = s.tape.read? a) ∧
      (s.head ≠ 0 → t.head + 1 = s.head ∧ t.tape.toList = s.tape.toList ∧ ∀ a, t.tape.read? a = s.tape.read? a) ∧
      t = { s with tape := t.tape, head := t.head, ip := s.ip + 1 }) ∧
  (∀ (s : State) (o : Nat), s.mode = .skipping o → exec .left s = .next { s with ip := s.ip + 1 })

/-- 43_io_ops.md R130 and R132: Read. The three answers of the input port, and Skipping mode. The byte 0 is data; on a fault
the cell keeps its old value, and no substitute value is ever written. In the two fault clauses the record with its sub-cause is
the spec's decision D4 and the frozen state D5 (log 10); that an answer clears `wait` is the model's choice (log 3). -/
def Obligations.ReadStoresOneInputByte : Prop :=
  encode .read = 0x2C#8 ∧ encodeCode .read = 0b010#3 ∧
  (∀ (s : State) (b : Byte) (rest : List InAnswer), TapeInv s → s.mode = .normal → s.ports.inAnswers = .byte b :: rest →
    ∃ t, exec .read s = .next t ∧
      t.tape.toList = s.tape.toList.set s.head b ∧
      (∀ a, a ≠ s.head → t.tape.read? a = s.tape.read? a) ∧
      t = { s with
        tape := t.tape
        ip := s.ip + 1
        wait := none
        ports := { s.ports with inAnswers := rest, inStream := s.ports.inStream ++ [b] } }) ∧
  (∀ (s : State) (rest : List InAnswer), TapeInv s → s.mode = .normal → s.ports.inAnswers = .exhausted :: rest →
    exec .read s = .next { s with
      status := .faulted { kind := .inputFailure, sub := .exhausted, pos := s.ip }
      wait := none
      ports := { s.ports with inAnswers := rest } }) ∧
  (∀ (s : State) (rest : List InAnswer), TapeInv s → s.mode = .normal → s.ports.inAnswers = .error :: rest →
    exec .read s = .next { s with
      status := .faulted { kind := .inputFailure, sub := .channelError, pos := s.ip }
      wait := none
      ports := { s.ports with inAnswers := rest } }) ∧
  (∀ (s : State) (o : Nat), s.mode = .skipping o → exec .read s = .next { s with ip := s.ip + 1 })

/-- 43_io_ops.md R131 and 60_exceptions.md R164: Write. The byte of a request answered OutOk joins the output stream, raw; an
OutError answer is the OutputFailure fault; the tape is never changed. In the OutError clause the record with its sub-cause is
the spec's decision D4 and the frozen state D5 (log 10); that an answer clears `wait` is the model's choice (log 3). -/
def Obligations.WriteEmitsTheCell : Prop :=
  encode .write = 0x2E#8 ∧ encodeCode .write = 0b011#3 ∧
  (∀ (s : State) (rest : List OutAnswer), TapeInv s → s.mode = .normal → s.ports.outAnswers = .ok :: rest →
    ∃ b, s.tape.toList[s.head]? = some b ∧
      exec .write s = .next { s with
        ip := s.ip + 1
        wait := none
        ports := { s.ports with outAnswers := rest, outStream := s.ports.outStream ++ [b] } }) ∧
  (∀ (s : State) (rest : List OutAnswer), TapeInv s → s.mode = .normal → s.ports.outAnswers = .error :: rest →
    exec .write s = .next { s with
      status := .faulted { kind := .outputFailure, sub := .channelError, pos := s.ip }
      wait := none
      ports := { s.ports with outAnswers := rest } }) ∧
  (∀ (s : State) (o : Nat), s.mode = .skipping o → exec .write s = .next { s with ip := s.ip + 1 })

/-- 44_loop_ops.md R140 and R141: LoopStart pushes its position in both modes; in Normal mode a zero guard starts a skip with
this position as origin; in Skipping mode the guard is not evaluated and the origin stays. In a finite realisation it completes
while the entry fits (R182). -/
def Obligations.LoopStartPushesAndGuards : Prop :=
  encode .loopStart = 0x5B#8 ∧ encodeCode .loopStart = 0b110#3 ∧
  (∀ s : State, TapeInv s → s.mode = .normal → (∀ m ∈ s.realisation.maxLoopDepth, s.lstack.length + 1 ≤ m) →
    ∃ b, s.tape.toList[s.head]? = some b ∧
      exec .loopStart s = .next { s with
        lstack := s.lstack ++ [s.ip]
        mode := if b = 0x00#8 then .skipping s.ip else .normal
        ip := s.ip + 1 }) ∧
  (∀ (s : State) (o : Nat), s.mode = .skipping o → (∀ m ∈ s.realisation.maxLoopDepth, s.lstack.length + 1 ≤ m) →
    exec .loopStart s = .next { s with lstack := s.lstack ++ [s.ip], ip := s.ip + 1 })

/-- 44_loop_ops.md R142 and R143, 60_exceptions.md R162: LoopEnd pops in both modes and faults on an empty stack, popping
nothing; in Normal mode a nonzero guard jumps to the popped position, a zero guard goes on; in Skipping mode the guard is not
evaluated, and popping the origin ends the skip without a jump. In the empty-stack clause the record with its position is the
spec's decision D4 (90_conflicts.md C4) and the frozen state D5 (log 10). -/
def Obligations.LoopEndPopsAndJumps : Prop :=
  encode .loopEnd = 0x5D#8 ∧ encodeCode .loopEnd = 0b111#3 ∧
  (∀ s : State, s.lstack = [] →
    exec .loopEnd s = .next { s with status := .faulted { kind := .unmatchedLoopEnd, sub := .none, pos := s.ip } }) ∧
  (∀ (s : State) (st : List Nat) (p : Nat), TapeInv s → s.mode = .normal → s.lstack = st ++ [p] →
    ∃ b, s.tape.toList[s.head]? = some b ∧
      (b ≠ 0x00#8 → exec .loopEnd s = .next { s with lstack := st, ip := p }) ∧
      (b = 0x00#8 → exec .loopEnd s = .next { s with lstack := st, ip := s.ip + 1 })) ∧
  (∀ (s : State) (st : List Nat) (p o : Nat), s.mode = .skipping o → s.lstack = st ++ [p] →
    (p = o → exec .loopEnd s = .next { s with lstack := st, mode := .normal, ip := s.ip + 1 }) ∧
    (p ≠ o → exec .loopEnd s = .next { s with lstack := st, ip := s.ip + 1 }))

/-- 10_state.md R37, R42 (log 7, the model's choice): with the head off the tape, which no run reaches, an operation that needs
the cell under the head stops by name, once what it checks first lets it through; it never reads or writes a cell that does not
exist. -/
def Obligations.AccessOffTheTapeStops : Prop :=
  ∀ s : State, s.mode = .normal → s.tape.len ≤ s.head →
    (∀ i, i = .add ∨ i = .subtract ∨ i = .read ∨ i = .write → exec i s = .fault .headOffTape) ∧
    (s.mayPush = true → exec .loopStart s = .fault .headOffTape) ∧
    (s.lstack ≠ [] → exec .loopEnd s = .fault .headOffTape)

/-- 40_execution_cycle.md R96 (with R141, R143): in Skipping mode every operation ends, without a wait; LoopStart only pushes
(where the entry fits, R182), LoopEnd only pops, and may end the skip, or faults on an empty stack; the other six have no effect
at all: no tape change, no port transaction, no wait, no fault. The record of that fault and the frozen state are the spec's
decisions D4 and D5 (log 10). -/
def Obligations.SkippingSuppressesEffects : Prop :=
  ∀ (s : State) (o : Nat) (i : Instr), s.mode = .skipping o →
    ∃ t, exec i s = .next t ∧ t.wait = s.wait ∧ t.ports = s.ports ∧
      (i ≠ .loopStart → i ≠ .loopEnd → t = { s with ip := s.ip + 1 }) ∧
      (i = .loopStart → (∀ m ∈ s.realisation.maxLoopDepth, s.lstack.length + 1 ≤ m) →
        t = { s with lstack := s.lstack ++ [s.ip], ip := s.ip + 1 }) ∧
      (i = .loopEnd → s.lstack = [] →
        t = { s with status := .faulted { kind := .unmatchedLoopEnd, sub := .none, pos := s.ip } }) ∧
      (∀ st p, i = .loopEnd → s.lstack = st ++ [p] →
        t = { s with lstack := st, mode := if p = o then .normal else .skipping o, ip := s.ip + 1 })

/-- 60_exceptions.md R182 (the spec's own faults, D7): in a finite realisation a Left or Right that needs a cell beyond
`MaxTapeCells` raises TapeCapacityExceeded, and a LoopStart beyond `MaxLoopDepth` raises LoopStackOverflow, in either mode,
precisely. -/
def Obligations.FiniteRealisationFaultsAtItsBounds : Prop :=
  (∀ (s : State) (m : Nat), TapeInv s → s.mode = .normal → s.realisation.maxTapeCells = some m → m < s.tape.len + 1 →
    (s.head + 1 = s.tape.len → exec .right s =
      .next { s with status := .faulted { kind := .tapeCapacityExceeded, sub := .none, pos := s.ip } }) ∧
    (s.head = 0 → exec .left s =
      .next { s with status := .faulted { kind := .tapeCapacityExceeded, sub := .none, pos := s.ip } })) ∧
  (∀ (s : State) (m : Nat), s.realisation.maxLoopDepth = some m → m < s.lstack.length + 1 →
    exec .loopStart s =
      .next { s with status := .faulted { kind := .loopStackOverflow, sub := .none, pos := s.ip } })

/-- 60_exceptions.md R178, 90_conflicts.md C6 (how a wait is held is the model's choice, log 3): with no answer of the host a
Normal-mode Read or Write waits, and nothing but the request is recorded; asking again changes nothing; the host's late answer
lets the same operation end as if the answer had been there at once. -/
def Obligations.WaitingStepResumesOnTheAnswer : Prop :=
  (∀ s : State, TapeInv s → s.mode = .normal → s.ports.inAnswers = [] →
    exec .read s = .next { s with wait := some .input } ∧
    exec .read { s with wait := some .input } = .next { s with wait := some .input } ∧
    ∀ a : InAnswer, ∃ u, answerInput a { s with wait := some .input } = some u ∧
      exec .read u = exec .read { s with ports := { s.ports with inAnswers := [a] } }) ∧
  (∀ s : State, TapeInv s → s.mode = .normal → s.ports.outAnswers = [] →
    ∃ b, s.tape.toList[s.head]? = some b ∧
      exec .write s = .next { s with wait := some (.output b) } ∧
      exec .write { s with wait := some (.output b) } = .next { s with wait := some (.output b) } ∧
      ∀ a : OutAnswer, ∃ u, answerOutput a { s with wait := some (.output b) } = some u ∧
        exec .write u = exec .write { s with ports := { s.ports with outAnswers := [a] } })

/-! ## Rules of the whole machine -/

/-- 20_memory.md R66: no operation writes the program store. -/
def Obligations.ProgramStoreIsNeverWritten : Prop :=
  ∀ s t : State, step s = .next t → t.prog = s.prog

/-- 10_state.md R24: the tape grows only at its two edges, and only when the head moves past one: by one zero cell appended or
prepended; it never shrinks. -/
def Obligations.TapeGrowsOnlyAtItsEdges : Prop :=
  ∀ s t : State, TapeInv s → step s = .next t →
    t.tape.len = s.tape.len ∨
    (s.fetch = some .right ∧ s.mode = .normal ∧ s.head + 1 = s.tape.len ∧ t.head = s.head + 1 ∧
      t.tape.toList = s.tape.toList ++ [0x00#8]) ∨
    (s.fetch = some .left ∧ s.mode = .normal ∧ s.head = 0 ∧ t.head = 0 ∧ t.tape.toList = 0x00#8 :: s.tape.toList)

/-- 20_memory.md R57 (derived there), 10_state.md R21: over one step the cells keep their values at every distance, seen from
where the head was; only a Normal-mode Add, Subtract or Read changes one, the cell under the head; only a Normal-mode Right or
Left moves the head. -/
def Obligations.OnlyCellOperationsWriteTheCell : Prop :=
  ∀ s t : State, TapeInv s → step s = .next t →
    ∃ shift : Int,
      (shift = 0 ∨ (shift = 1 ∧ s.fetch = some .right ∧ s.mode = .normal) ∨
        (shift = -1 ∧ s.fetch = some .left ∧ s.mode = .normal)) ∧
      ∀ d : Int, cellAt t d = cellAt s (d + shift) ∨
        (d = 0 ∧ shift = 0 ∧ s.mode = .normal ∧
          (s.fetch = some .add ∨ s.fetch = some .subtract ∨ s.fetch = some .read))

/-- 44_loop_ops.md R144: one stack for both modes: "every LoopStart pushing and every LoopEnd popping regardless of mode", and
no other operation touches it. -/
def Obligations.OneLoopStackForBothModes : Prop :=
  ∀ (s t : State) (i : Instr), s.status = .running → s.fetch = some i → step s = .next t → t.status = .running →
    (i = .loopStart → t.lstack = s.lstack ++ [s.ip]) ∧
    (i = .loopEnd → ∃ p, s.lstack = t.lstack ++ [p]) ∧
    (i ≠ .loopStart → i ≠ .loopEnd → t.lstack = s.lstack)

/-- 10_state.md R31: the skip-mode marker is set only by a Normal-mode LoopStart whose guard is zero, to that LoopStart's
position, and cleared only by a Skipping-mode LoopEnd that pops the origin. -/
def Obligations.ModeChangesOnlyAtBrackets : Prop :=
  ∀ s t : State, step s = .next t → t.mode ≠ s.mode →
    (s.mode = .normal ∧ s.fetch = some .loopStart ∧ s.cell? = some 0x00#8 ∧ t.mode = .skipping s.ip) ∨
    (∃ o, s.mode = .skipping o ∧ s.fetch = some .loopEnd ∧ s.lstack.getLast? = some o ∧ t.mode = .normal)

/-- 60_exceptions.md R165 (the frozen state is the spec's decision D5) and R167 (derived there): a step that faults writes only
`status`; the record names the ip, which still names the operation, and the kind is one that operation can raise. Of the ports
only the answers move on: no byte joins either stream. -/
def Obligations.FaultsArePrecise : Prop :=
  ∀ (s t : State) (f : FaultRecord), s.status = .running → step s = .next t → t.status = .faulted f →
    f.pos = s.ip ∧ (∃ i, s.fetch = some i ∧ canRaise i f.kind = true) ∧
    t = { s with status := t.status, wait := t.wait, ports := t.ports } ∧
    t.ports.inStream = s.ports.inStream ∧ t.ports.outStream = s.ports.outStream

/-- 60_exceptions.md R160, R162 to R164 (the codes and the sub-cause are the spec's own, D4, log 10): in the normative
realisation a step faults exactly in four cases, LoopEnd on an empty stack, Read with no input, Read on a channel error, Write
on a channel error, and the record is the one of that case. -/
def Obligations.EngineFaultsExactlyWhereTheSpecSays : Prop :=
  ∀ (s t : State) (f : FaultRecord), Unbounded s → s.status = .running → step s = .next t →
    (t.status = .faulted f ↔
      (s.fetch = some .loopEnd ∧ s.lstack = [] ∧ f = { kind := .unmatchedLoopEnd, sub := .none, pos := s.ip }) ∨
      (s.fetch = some .read ∧ s.mode = .normal ∧ s.ports.inAnswers.head? = some .exhausted ∧
        f = { kind := .inputFailure, sub := .exhausted, pos := s.ip }) ∨
      (s.fetch = some .read ∧ s.mode = .normal ∧ s.ports.inAnswers.head? = some .error ∧
        f = { kind := .inputFailure, sub := .channelError, pos := s.ip }) ∨
      (s.fetch = some .write ∧ s.mode = .normal ∧ s.ports.outAnswers.head? = some .error ∧
        f = { kind := .outputFailure, sub := .channelError, pos := s.ip }))

/-- 20_memory.md R63 (derived there): a step makes at most one port transaction; an input byte is consumed by a Normal-mode Read
and an output byte emitted by a Normal-mode Write, one each, in order, and nothing else touches the ports. -/
def Obligations.StreamsMoveOneByteInOrder : Prop :=
  ∀ s t : State, step s = .next t →
    t.ports = s.ports ∨
    (s.fetch = some .read ∧ s.mode = .normal ∧ ∃ a rest, s.ports.inAnswers = a :: rest ∧
      ((∃ b, a = .byte b ∧ t.ports = { s.ports with inAnswers := rest, inStream := s.ports.inStream ++ [b] }) ∨
       ((∀ b, a ≠ .byte b) ∧ t.ports = { s.ports with inAnswers := rest }))) ∨
    (s.fetch = some .write ∧ s.mode = .normal ∧ ∃ a rest c, s.ports.outAnswers = a :: rest ∧ s.cell? = some c ∧
      ((a = .ok ∧ t.ports = { s.ports with outAnswers := rest, outStream := s.ports.outStream ++ [c] }) ∨
       (a = .error ∧ t.ports = { s.ports with outAnswers := rest })))

/-- 60_exceptions.md R177, 10_state.md R35 (the register map is the spec's decision D11): what each debug read gives. Every fault
record reads back, at the kind and sub codes of R161 (decision D4); PROG reads as the 3-bit codes of R80 (decision D6); MODE.origin
in Normal mode and the fault fields while Running are refused. The snapshot holds every field. The remaining program text
(30_encoding.md R83, derived there) is what the source says from the ip on, without its comment bytes. That it starts at the ip, and
what a read gives in a state that waits inside a step, is the model's choice (log 14). -/
def Obligations.DebugReadsFollowTheRegisterMap : Prop :=
  (∀ s : State, debugRead .ip s = .next (.number s.ip) ∧ debugRead .head s = .next (.number s.head) ∧
    debugRead .tapeCells s = .next (.cells s.tape.toList) ∧ debugRead .lstackEntries s = .next (.entries s.lstack) ∧
    debugRead .progOps s = .next (.ops (s.prog.map encodeCode))) ∧
  (∀ s : State, s.mode = .normal →
    debugRead .modeSkipping s = .next (.bit 0#1) ∧ debugRead .modeOrigin s = .refused .unspecifiedField) ∧
  (∀ (s : State) (o : Nat), s.mode = .skipping o →
    debugRead .modeSkipping s = .next (.bit 1#1) ∧ debugRead .modeOrigin s = .next (.number o)) ∧
  (∀ s : State, s.status = .running →
    debugRead .statusFaulted s = .next (.bit 0#1) ∧ debugRead .statusKind s = .refused .unspecifiedField ∧
    debugRead .statusSub s = .refused .unspecifiedField ∧ debugRead .statusPos s = .refused .unspecifiedField) ∧
  (∀ (s : State) (f : FaultRecord), s.status = .faulted f →
    debugRead .statusFaulted s = .next (.bit 1#1) ∧ debugRead .statusPos s = .next (.number f.pos) ∧
    (f.kind = .unmatchedLoopEnd → debugRead .statusKind s = .next (.kind 1#3)) ∧
    (f.kind = .inputFailure → debugRead .statusKind s = .next (.kind 2#3)) ∧
    (f.kind = .outputFailure → debugRead .statusKind s = .next (.kind 3#3)) ∧
    (f.kind = .tapeCapacityExceeded → debugRead .statusKind s = .next (.kind 4#3)) ∧
    (f.kind = .loopStackOverflow → debugRead .statusKind s = .next (.kind 5#3)) ∧
    (f.sub = .none → debugRead .statusSub s = .next (.sub 0#2)) ∧
    (f.sub = .exhausted → debugRead .statusSub s = .next (.sub 1#2)) ∧
    (f.sub = .channelError → debugRead .statusSub s = .next (.sub 2#2))) ∧
  (∀ s : State, snapshot s =
    { tape := s.tape.toList, head := s.head, prog := s.prog, ip := s.ip, lstack := s.lstack, mode := s.mode,
      status := s.status }) ∧
  (∀ (s : State) (src : List Byte), s.prog = loadSource src →
    remainingText s =
      (src.filter (fun b => decide (b ∈ [0x2B#8, 0x2D#8, 0x2C#8, 0x2E#8, 0x3C#8, 0x3E#8, 0x5B#8, 0x5D#8]))).drop s.ip)

/-! ## Invariants and what follows from them -/

/-- 10_state.md R36 (derived there): every step keeps the engine's invariant: R37 the tape, R38 the pointer, R39 the stack, R40
the skip, and the facts of a faulted, a waiting and a finite engine. -/
def Obligations.StepKeepsTheEngineInvariant : Prop :=
  ∀ s t : State, EngineInv s → step s = .next t → EngineInv t

/-- 40_execution_cycle.md R105 (derived there): every step keeps the loop stack equal to the LoopStarts that the program text
leaves open before ip, in both modes and over every backward jump. -/
def Obligations.StepKeepsTheBracketInvariant : Prop :=
  ∀ s t : State, BracketInv s → step s = .next t → BracketInv t

/-- 10_state.md R42 (derived there), 60_exceptions.md R160: while Running, a legal state always has a next state: no access is
out of range, and nothing is refused. -/
def Obligations.RunningEngineNeverStops : Prop :=
  ∀ s : State, EngineInv s → s.status = .running → ∃ t, step s = .next t

/-- 10_state.md R41 (derived there): in Skipping mode the loop stack is never empty, and the unmatched-LoopEnd fault cannot
occur. -/
def Obligations.SkippingNeverFindsTheStackEmpty : Prop :=
  ∀ (s : State) (o : Nat), EngineInv s → s.mode = .skipping o →
    s.lstack ≠ [] ∧ ∀ t f, step s = .next t → t.status = .faulted f → f.kind ≠ .unmatchedLoopEnd

/-- 10_state.md R44 and 00_scope.md R10 (derived there): the loop stack never holds more entries than the program has
LoopStarts, so a realisation with that much room never overflows. -/
def Obligations.LoopDepthIsBoundedByTheProgram : Prop :=
  ∀ s : State, EngineInv s →
    s.lstack.length ≤ loopStartCount s.prog ∧
    ((∀ m ∈ s.realisation.maxLoopDepth, loopStartCount s.prog ≤ m) → s.status = .running →
      ∀ t f, step s = .next t → t.status = .faulted f → f.kind ≠ .loopStackOverflow)

/-- 00_scope.md R9 (the widths are OPEN; D7): in a realisation whose widths fit the program and the tape bound, the ip, every
loop-stack entry and the head fit their widths, so nothing ever wraps. -/
def Obligations.PointersFitTheirWidths : Prop :=
  ∀ s : State, EngineInv s → s.realisation.wf s.prog = true →
    (∀ w ∈ s.realisation.ipWidth, s.ip < 2 ^ w ∧ ∀ e ∈ s.lstack, e < 2 ^ w) ∧
    (∀ w ∈ s.realisation.headWidth, s.head < 2 ^ w)

/-- 10_state.md R43 and 40_execution_cycle.md R105 (derived there): a backward jump from a LoopEnd goes to the LoopStart that
structurally matches it, which lies before it; the next step runs that LoopStart. -/
def Obligations.BackwardJumpGoesToTheMatchingLoopStart : Prop :=
  ∀ (s : State) (before body after : Program) (b : Byte),
    Balanced body → s.prog = before ++ .loopStart :: (body ++ .loopEnd :: after) →
    s.ip = before.length + 1 + body.length → s.status = .running → s.mode = .normal → BracketInv s →
    s.cell? = some b → b ≠ 0x00#8 →
    ∃ t, step s = .next t ∧ t.ip = before.length ∧ t.fetch = some .loopStart ∧
      t = { s with ip := before.length, lstack := s.lstack.dropLast } ∧ BracketInv t

/-- 40_execution_cycle.md R105, R106, 70_reset_and_hazards.md R202 (derived there): a LoopStart with a zero guard over a balanced
body skips to the LoopEnd that structurally matches it, in `len(body) + 2` steps, and nothing but the ip has changed. -/
def Obligations.SkipEndsAtTheMatchingLoopEnd : Prop :=
  ∀ (s : State) (before body after : Program),
    Balanced body → s.prog = before ++ .loopStart :: (body ++ .loopEnd :: after) → s.ip = before.length →
    s.status = .running → s.mode = .normal → s.cell? = some 0x00#8 → s.realisation.maxLoopDepth = none →
    stepTimes (body.length + 2) s = .next { s with ip := s.ip + (body.length + 2) }

/-- 41_cell_ops.md R112: any sequence of Adds and Subtracts on one cell leaves it at `(initial + a - s) mod 256`, whatever their
order, and changes nothing else but the ip. -/
def Obligations.AddsAndSubtractsSumModulo256 : Prop :=
  ∀ (ops : List Instr) (s : State), (∀ i ∈ ops, i = .add ∨ i = .subtract) → TapeInv s → s.mode = .normal →
    ∃ b t, s.tape.toList[s.head]? = some b ∧ execAll ops s = .next t ∧
      t.tape.toList = s.tape.toList.set s.head
        (BitVec.ofInt 8 ((b.toNat : Int) + ops.count .add - ops.count .subtract)) ∧
      t = { s with tape := t.tape, ip := s.ip + ops.length }

/-- 20_memory.md R68 (derived there in general, stated for Right first): `k` Rights then `k` Lefts bring the head back to its
index and change no cell, only adding zero cells at the right edge; `k` Lefts then `k` Rights add zero cells at the left edge,
and the head goes up with the cells. -/
def Obligations.TapeGrowthIsTransparent : Prop :=
  ∀ (k : Nat) (s : State), TapeInv s → s.mode = .normal → s.realisation.maxTapeCells = none →
    (∃ u t, execTimes .right k s = .next u ∧ execTimes .left k u = .next t ∧ t.head = s.head ∧
      t.tape.toList = s.tape.toList ++ List.replicate (s.head + k + 1 - s.tape.len) 0x00#8) ∧
    (∃ u t, execTimes .left k s = .next u ∧ execTimes .right k u = .next t ∧ t.head = s.head + (k - s.head) ∧
      t.tape.toList = List.replicate (k - s.head) 0x00#8 ++ s.tape.toList)

/-- 10_state.md R25, R26 (derived there): any sequence of Adds, Subtracts, Lefts and Rights acts on the materialized tape as it
acts on "a total function `T : Int -> Byte`" with an unbounded head: every cell visited keeps its last value, at its distance. -/
def Obligations.MovesAndWritesActAsOnAnInfiniteTape : Prop :=
  ∀ (ops : List Instr) (s : State),
    (∀ i ∈ ops, i = .add ∨ i = .subtract ∨ i = .left ∨ i = .right) →
    TapeInv s → s.mode = .normal → s.realisation.maxTapeCells = none →
    ∃ t, execAll ops s = .next t ∧ TapeInv t ∧ t.ip = s.ip + ops.length ∧
      ∀ d : Int, cellAt t d =
        (ops.foldl (tapeEffect functionTape) (fun q => cellAt s q, 0)).1
          ((ops.foldl (tapeEffect functionTape) (fun q => cellAt s q, 0)).2 + d)

/-! ## Headline comparisons -/

/-- 40_execution_cycle.md R99: in the normative realisation the machine's step is the spec's pseudocode over the spec's sequence
tape: the same state after, the same reply; refused where the pseudocode has no transition, waiting where it waits. -/
def Obligations.StepRefinesThePseudocode : Prop :=
  ∀ s : State, EngineInv s → Unbounded s →
    match pseudoStep sequenceTape s.asSequence with
    | .noTransition => step s = .refused .stepAfterFault
    | .waits => ∃ r, step s = .next { s with wait := some r } ∧ stepReply { s with wait := some r } = none
    | .replies reply p => ∃ t, step s = .next t ∧ t.asSequence = p ∧ stepReply t = some reply

/-- 10_state.md R25 (derived there): "a model may represent the tape as a total function": from a state and a total-function
state that say the same, the step and the pseudocode over the function tape, with no growth at all, give the same reply and
again say the same. -/
def Obligations.FunctionTapeSimulatesTheMachine : Prop :=
  ∀ (s : State) (p : Pseudo ((Int → Byte) × Int)), EngineInv s → Unbounded s → SameAsFunction s p →
    match pseudoStep functionTape p with
    | .noTransition => step s = .refused .stepAfterFault
    | .waits => ∃ r, step s = .next { s with wait := some r } ∧ SameAsFunction { s with wait := some r } p
    | .replies reply q => ∃ t, step s = .next t ∧ SameAsFunction t q ∧ stepReply t = some reply

/-- 10_state.md R25 (derived there): "Nothing a program can observe depends on" the materialized length: two engines that differ
only in which zero cells are materialized, driven alike, reply alike and move the same bytes, and go on differing only so. (The
host's debug port does show the difference: HEAD and TAPE.) -/
def Obligations.MaterializedLengthIsUnobservable : Prop :=
  ∀ (n : Nat) (s s' t : State), EngineInv s → EngineInv s' → Unbounded s → SameButGrowth s s' → drive n s = .next t →
    ∃ t', drive n s' = .next t' ∧ SameButGrowth t t' ∧ stepReply t' = stepReply t ∧ t'.ports = t.ports

/-- 40_execution_cycle.md R103: under every host, endless answers included, a run has exactly one of four outcomes, Completed,
Faulted, Diverges or Blocked; a completed one ends at `ip = N`, a faulted one has one record, and a run whose every request is
answered is never Blocked. How a host and a wait are held is the model's choice (log 2, log 3). -/
def Obligations.RunHasExactlyOneOutcome : Prop :=
  ∀ (h : HostAnswers) (s : State), EngineInv s → s.status = .running →
    (Completes h s ∨ (∃ f, FaultsWith h s f) ∨ Diverges h s ∨ Blocks h s) ∧
    ¬ (Completes h s ∧ ∃ f, FaultsWith h s f) ∧ ¬ (Completes h s ∧ Diverges h s) ∧ ¬ (Completes h s ∧ Blocks h s) ∧
    ¬ ((∃ f, FaultsWith h s f) ∧ Diverges h s) ∧ ¬ ((∃ f, FaultsWith h s f) ∧ Blocks h s) ∧
    ¬ (Diverges h s ∧ Blocks h s) ∧
    (∀ f g, FaultsWith h s f → FaultsWith h s g → f = g) ∧
    (∀ n t, hostedRun (n + 1) h s = .next t → stepReply t = some (.cont false) → t.ip = t.prog.length) ∧
    ((∀ k, h.input k ≠ none) → (∀ k, h.output k ≠ none) → ¬ Blocks h s)

/-- 40_execution_cycle.md R104, 44_loop_ops.md R145 (the spec's decision D8): a program that ends in a LoopStart completes with
that loop left open, in Skipping mode if its guard is zero: no end-of-program bracket check. -/
def Obligations.OpenLoopsAtTheEndComplete : Prop :=
  ∀ s : State, EngineInv s → Unbounded s → s.status = .running → s.fetch = some .loopStart → s.ip + 1 = s.prog.length →
    ∃ t, step s = .next t ∧ stepReply t = some (.cont false) ∧ t.status = .running ∧ s.ip ∈ t.lstack

/-! ## The loader and the host's answers -/

/-- 30_encoding.md R82 (general knowledge there; what valid UTF-8 is, is presumed, log 16): "A loader that reads the source as UTF-8
characters rather than raw bytes produces the same `prog`" for every valid UTF-8 source, and only for those it gives one. Each of
the eight characters is one byte with its code (R74). -/
def Obligations.CharacterWiseLoadingAgrees : Prop :=
  (∀ src : List Byte, utf8Valid src = true → loadCharacters src = some (loadSource src)) ∧
  (∀ src : List Byte, utf8Valid src = false → loadCharacters src = none) ∧
  (∀ i : Instr, utf8Chars [encode i] = some [(encode i).toNat] ∧ decodeChar (encode i).toNat = some i)

/-- 60_exceptions.md R181 (the spec's decision D12), R173, R174: the host answers a request only while the engine waits in it, and
only once; the answer changes nothing but the list of that port. That lists hold the answers is the model's choice (log 2). -/
def Obligations.OnlyAnIssuedRequestIsAnswered : Prop :=
  (∀ (a : InAnswer) (s : State), (s.wait ≠ some .input ∨ s.ports.inAnswers ≠ [] → answerInput a s = none) ∧
    (s.wait = some .input → s.ports.inAnswers = [] →
      ∃ u, answerInput a s = some u ∧ u = { s with ports := { s.ports with inAnswers := [a] } } ∧
        (∀ b, answerInput b u = none) ∧ ∀ b, answerOutput b u = none)) ∧
  (∀ (a : OutAnswer) (s : State), ((∀ c, s.wait ≠ some (.output c)) ∨ s.ports.outAnswers ≠ [] → answerOutput a s = none) ∧
    (∀ c, s.wait = some (.output c) → s.ports.outAnswers = [] →
      ∃ u, answerOutput a s = some u ∧ u = { s with ports := { s.ports with outAnswers := [a] } } ∧
        (∀ b, answerOutput b u = none) ∧ ∀ b, answerInput b u = none))
end

