-- ==== Sys2Proof/Laws/State.lean ====
section
/-! SUPPORT. One lemma per field per update of State, true by rfl, so that no later proof unfolds a record update. -/

namespace Sys2Proof.Machine

section Fields
variable (s : State)

/-! the advance of R97 -/

@[simp] theorem State.advance_tape : (s.advance).tape = s.tape := rfl
@[simp] theorem State.advance_head : (s.advance).head = s.head := rfl
@[simp] theorem State.advance_prog : (s.advance).prog = s.prog := rfl
@[simp] theorem State.advance_ip : (s.advance).ip = s.ip + 1 := rfl
@[simp] theorem State.advance_lstack : (s.advance).lstack = s.lstack := rfl
@[simp] theorem State.advance_mode : (s.advance).mode = s.mode := rfl
@[simp] theorem State.advance_status : (s.advance).status = s.status := rfl
@[simp] theorem State.advance_wait : (s.advance).wait = s.wait := rfl
@[simp] theorem State.advance_ports : (s.advance).ports = s.ports := rfl
@[simp] theorem State.advance_realisation : (s.advance).realisation = s.realisation := rfl

/-! the backward jump of R142 -/

@[simp] theorem State.jumpTo_tape (p : Nat) : (s.jumpTo p).tape = s.tape := rfl
@[simp] theorem State.jumpTo_head (p : Nat) : (s.jumpTo p).head = s.head := rfl
@[simp] theorem State.jumpTo_prog (p : Nat) : (s.jumpTo p).prog = s.prog := rfl
@[simp] theorem State.jumpTo_ip (p : Nat) : (s.jumpTo p).ip = p := rfl
@[simp] theorem State.jumpTo_lstack (p : Nat) : (s.jumpTo p).lstack = s.lstack := rfl
@[simp] theorem State.jumpTo_mode (p : Nat) : (s.jumpTo p).mode = s.mode := rfl
@[simp] theorem State.jumpTo_status (p : Nat) : (s.jumpTo p).status = s.status := rfl
@[simp] theorem State.jumpTo_wait (p : Nat) : (s.jumpTo p).wait = s.wait := rfl
@[simp] theorem State.jumpTo_ports (p : Nat) : (s.jumpTo p).ports = s.ports := rfl
@[simp] theorem State.jumpTo_realisation (p : Nat) : (s.jumpTo p).realisation = s.realisation := rfl

/-! raising a fault (R15, R165) -/

@[simp] theorem State.raise_tape (k : FaultKind) (c : SubCause) : (s.raise k c).tape = s.tape := rfl
@[simp] theorem State.raise_head (k : FaultKind) (c : SubCause) : (s.raise k c).head = s.head := rfl
@[simp] theorem State.raise_prog (k : FaultKind) (c : SubCause) : (s.raise k c).prog = s.prog := rfl
@[simp] theorem State.raise_ip (k : FaultKind) (c : SubCause) : (s.raise k c).ip = s.ip := rfl
@[simp] theorem State.raise_lstack (k : FaultKind) (c : SubCause) : (s.raise k c).lstack = s.lstack := rfl
@[simp] theorem State.raise_mode (k : FaultKind) (c : SubCause) : (s.raise k c).mode = s.mode := rfl
@[simp] theorem State.raise_status (k : FaultKind) (c : SubCause) : (s.raise k c).status = .faulted { kind := k, sub := c, pos := s.ip } := rfl
@[simp] theorem State.raise_wait (k : FaultKind) (c : SubCause) : (s.raise k c).wait = s.wait := rfl
@[simp] theorem State.raise_ports (k : FaultKind) (c : SubCause) : (s.raise k c).ports = s.ports := rfl
@[simp] theorem State.raise_realisation (k : FaultKind) (c : SubCause) : (s.raise k c).realisation = s.realisation := rfl

/-! shift_right (R122) -/

@[simp] theorem State.shiftRight_tape (n : Nat) : (s.shiftRight n).tape = s.tape.append (s.growRight n) := rfl
@[simp] theorem State.shiftRight_head (n : Nat) : (s.shiftRight n).head = s.head + n := rfl
@[simp] theorem State.shiftRight_prog (n : Nat) : (s.shiftRight n).prog = s.prog := rfl
@[simp] theorem State.shiftRight_ip (n : Nat) : (s.shiftRight n).ip = s.ip := rfl
@[simp] theorem State.shiftRight_lstack (n : Nat) : (s.shiftRight n).lstack = s.lstack := rfl
@[simp] theorem State.shiftRight_mode (n : Nat) : (s.shiftRight n).mode = s.mode := rfl
@[simp] theorem State.shiftRight_status (n : Nat) : (s.shiftRight n).status = s.status := rfl
@[simp] theorem State.shiftRight_wait (n : Nat) : (s.shiftRight n).wait = s.wait := rfl
@[simp] theorem State.shiftRight_ports (n : Nat) : (s.shiftRight n).ports = s.ports := rfl
@[simp] theorem State.shiftRight_realisation (n : Nat) : (s.shiftRight n).realisation = s.realisation := rfl

/-! shift_left (R122) -/

@[simp] theorem State.shiftLeft_tape (n : Nat) : (s.shiftLeft n).tape = s.tape.prepend (s.growLeft n) := rfl
@[simp] theorem State.shiftLeft_head (n : Nat) : (s.shiftLeft n).head = s.head + s.growLeft n - n := rfl
@[simp] theorem State.shiftLeft_prog (n : Nat) : (s.shiftLeft n).prog = s.prog := rfl
@[simp] theorem State.shiftLeft_ip (n : Nat) : (s.shiftLeft n).ip = s.ip := rfl
@[simp] theorem State.shiftLeft_lstack (n : Nat) : (s.shiftLeft n).lstack = s.lstack := rfl
@[simp] theorem State.shiftLeft_mode (n : Nat) : (s.shiftLeft n).mode = s.mode := rfl
@[simp] theorem State.shiftLeft_status (n : Nat) : (s.shiftLeft n).status = s.status := rfl
@[simp] theorem State.shiftLeft_wait (n : Nat) : (s.shiftLeft n).wait = s.wait := rfl
@[simp] theorem State.shiftLeft_ports (n : Nat) : (s.shiftLeft n).ports = s.ports := rfl
@[simp] theorem State.shiftLeft_realisation (n : Nat) : (s.shiftLeft n).realisation = s.realisation := rfl

/-! the push of R140, R141 -/

@[simp] theorem State.pushLoop_tape : (s.pushLoop).tape = s.tape := rfl
@[simp] theorem State.pushLoop_head : (s.pushLoop).head = s.head := rfl
@[simp] theorem State.pushLoop_prog : (s.pushLoop).prog = s.prog := rfl
@[simp] theorem State.pushLoop_ip : (s.pushLoop).ip = s.ip := rfl
@[simp] theorem State.pushLoop_lstack : (s.pushLoop).lstack = s.lstack ++ [s.ip] := rfl
@[simp] theorem State.pushLoop_mode : (s.pushLoop).mode = s.mode := rfl
@[simp] theorem State.pushLoop_status : (s.pushLoop).status = s.status := rfl
@[simp] theorem State.pushLoop_wait : (s.pushLoop).wait = s.wait := rfl
@[simp] theorem State.pushLoop_ports : (s.pushLoop).ports = s.ports := rfl
@[simp] theorem State.pushLoop_realisation : (s.pushLoop).realisation = s.realisation := rfl

/-! waiting at a port (R178) -/

@[simp] theorem State.await_tape (r : Request) : (s.await r).tape = s.tape := rfl
@[simp] theorem State.await_head (r : Request) : (s.await r).head = s.head := rfl
@[simp] theorem State.await_prog (r : Request) : (s.await r).prog = s.prog := rfl
@[simp] theorem State.await_ip (r : Request) : (s.await r).ip = s.ip := rfl
@[simp] theorem State.await_lstack (r : Request) : (s.await r).lstack = s.lstack := rfl
@[simp] theorem State.await_mode (r : Request) : (s.await r).mode = s.mode := rfl
@[simp] theorem State.await_status (r : Request) : (s.await r).status = s.status := rfl
@[simp] theorem State.await_wait (r : Request) : (s.await r).wait = some r := rfl
@[simp] theorem State.await_ports (r : Request) : (s.await r).ports = s.ports := rfl
@[simp] theorem State.await_realisation (r : Request) : (s.await r).realisation = s.realisation := rfl

/-! SetCell (R13) -/

@[simp] theorem State.setCell_tape (v : Byte) : (s.setCell v).tape = s.tape.write s.head v := rfl
@[simp] theorem State.setCell_head (v : Byte) : (s.setCell v).head = s.head := rfl
@[simp] theorem State.setCell_prog (v : Byte) : (s.setCell v).prog = s.prog := rfl
@[simp] theorem State.setCell_ip (v : Byte) : (s.setCell v).ip = s.ip := rfl
@[simp] theorem State.setCell_lstack (v : Byte) : (s.setCell v).lstack = s.lstack := rfl
@[simp] theorem State.setCell_mode (v : Byte) : (s.setCell v).mode = s.mode := rfl
@[simp] theorem State.setCell_status (v : Byte) : (s.setCell v).status = s.status := rfl
@[simp] theorem State.setCell_wait (v : Byte) : (s.setCell v).wait = s.wait := rfl
@[simp] theorem State.setCell_ports (v : Byte) : (s.setCell v).ports = s.ports := rfl
@[simp] theorem State.setCell_realisation (v : Byte) : (s.setCell v).realisation = s.realisation := rfl

end Fields

/-! What the host loads (R175, R197). -/

@[simp] theorem loadProgram_prog (r : Realisation) (p : Program) : (loadProgram r p).prog = p := rfl
@[simp] theorem loadProgram_realisation (r : Realisation) (p : Program) : (loadProgram r p).realisation = r := rfl
@[simp] theorem State.withFetchWord_prog (s : State) (n w : Nat) :
    (s.withFetchWord n w).prog = storeAtFetch (loadSource [BitVec.ofNat 8 w]) s := rfl

/-! A tape's two parts after an update. -/

@[simp] theorem Tape.write_len (t : Tape) (a : Nat) (v : Byte) : (t.write a v).len = t.len := rfl
@[simp] theorem Tape.write_cells (t : Tape) (a : Nat) (v : Byte) : (t.write a v).cells = t.cells.write a v := rfl
@[simp] theorem Tape.append_len (t : Tape) (n : Nat) : (t.append n).len = t.len + n := rfl
@[simp] theorem Tape.append_cells (t : Tape) (n : Nat) : (t.append n).cells = t.cells := rfl
@[simp] theorem Tape.prepend_len (t : Tape) (n : Nat) : (t.prepend n).len = t.len + n := rfl
@[simp] theorem Tape.prepend_cells (t : Tape) (n : Nat) : (t.prepend n).cells = t.cells.shiftUp n := rfl

end Sys2Proof.Machine
end

