-- ==== Sys2Proof/Laws/Memory.lean ====
section
/-! SUPPORT. Memory and tape: read after write, every operation keeps the canonical form, and the sparse tape is the spec's
sequence of cells under every operation. -/

namespace Sys2Proof.Machine

/-! ## Memory -/

@[simp] theorem Memory.read_entry (a b : Nat) (v : Byte) (m : Memory) (h : a = b → m.read b = Memory.unlisted) :
    (Memory.entry a v m).read b = if a = b then v else m.read b := by
  unfold Memory.entry
  split
  next hv => split
             next hab => rw [h hab, hv]
             next => rfl
  next => rfl

/-- An index that no entry names reads as an unlisted cell. -/
theorem Memory.read_of_not_listed {m : Memory} {a : Nat} (h : ∀ c ∈ m, c.1 ≠ a) : m.read a = Memory.unlisted := by
  induction m with
  | nil => rfl
  | cons c m ih =>
    simp only [Memory.read]
    rw [if_neg (h c (by simp)), ih (fun d hd => h d (by simp [hd]))]

/-- Read after write. -/
theorem Memory.read_write {m : Memory} (hm : m.wf) (a b : Nat) (v : Byte) :
    (m.write a v).read b = if a = b then v else m.read b := by
  induction m with
  | nil => exact Memory.read_entry a b v [] (fun _ => rfl)
  | cons c m ih =>
    obtain ⟨hs, hz⟩ := hm
    rw [List.pairwise_cons] at hs
    have hm' : Memory.wf m := ⟨hs.2, fun d hd => hz d (by simp [hd])⟩
    simp only [Memory.write]
    split
    next hlt =>
      refine Memory.read_entry a b v (c :: m) (fun hab => Memory.read_of_not_listed fun d hd => ?_)
      rcases List.mem_cons.1 hd with rfl | hd
      · omega
      · have := hs.1 d hd; omega
    next hlt =>
      split
      next hac =>
        rw [Memory.read_entry a b v m (fun hab => Memory.read_of_not_listed fun d hd => ?_)]
        · simp only [Memory.read, ← hac]
          split <;> rfl
        · have := hs.1 d hd; omega
      next hac =>
        simp only [Memory.read, ih hm']
        split
        next hcb => rw [if_neg (by omega)]
        next => rfl

theorem Memory.mem_entry {c : Host.Cell} {a : Nat} {v : Byte} {m : Memory} (h : c ∈ Memory.entry a v m) :
    (c = (a, v) ∧ v ≠ Memory.unlisted) ∨ c ∈ m := by
  unfold Memory.entry at h
  split at h
  next => exact .inr h
  next hv => rcases List.mem_cons.1 h with h | h
             · exact .inl ⟨h, hv⟩
             · exact .inr h

/-- A write lists nothing but old entries and its own. -/
theorem Memory.mem_write {c : Host.Cell} {a : Nat} {v : Byte} {m : Memory} (h : c ∈ Memory.write m a v) :
    (c = (a, v) ∧ v ≠ Memory.unlisted) ∨ c ∈ m := by
  induction m with
  | nil => exact Memory.mem_entry h
  | cons d m ih =>
    simp only [Memory.write] at h
    split at h
    next => exact Memory.mem_entry h
    next =>
      split at h
      next => exact (Memory.mem_entry h).imp id (fun h => by simp [h])
      next =>
        rcases List.mem_cons.1 h with h | h
        · exact .inr (by simp [h])
        · exact (ih h).imp id (fun h => by simp [h])

/-- A write keeps the canonical form. -/
theorem Memory.wf_write {m : Memory} (hm : m.wf) (a : Nat) (v : Byte) : (m.write a v).wf := by
  refine ⟨?_, fun c hc => ?_⟩
  · have entry_sorted : ∀ m : Memory, m.Pairwise (fun x y => x.1 < y.1) → (∀ c ∈ m, a < c.1) →
        (Memory.entry a v m).Pairwise (fun x y => x.1 < y.1) := by
      intro m hs hl
      unfold Memory.entry
      split
      · exact hs
      · exact List.pairwise_cons.2 ⟨hl, hs⟩
    obtain ⟨hs, -⟩ := hm
    induction m with
    | nil => exact entry_sorted [] List.Pairwise.nil (by simp)
    | cons d m ih =>
      rw [List.pairwise_cons] at hs
      simp only [Memory.write]
      split
      next hlt =>
        refine entry_sorted _ (List.pairwise_cons.2 hs) fun c hc => ?_
        rcases List.mem_cons.1 hc with rfl | hc
        · exact hlt
        · exact Nat.lt_trans hlt (hs.1 c hc)
      next hlt =>
        split
        next had => exact entry_sorted _ hs.2 fun c hc => had ▸ hs.1 c hc
        next had =>
          refine List.pairwise_cons.2 ⟨fun c hc => ?_, ih hs.2⟩
          rcases Memory.mem_write hc with ⟨rfl, -⟩ | hc
          · show d.1 < a; omega
          · exact hs.1 c hc
  · rcases Memory.mem_write hc with ⟨rfl, hv⟩ | hc
    · exact hv
    · exact hm.2 c hc

/-- Shifting keeps the canonical form. -/
theorem Memory.wf_shiftUp {m : Memory} (hm : m.wf) (n : Nat) : (m.shiftUp n).wf := by
  refine ⟨?_, fun c hc => ?_⟩
  · unfold Memory.shiftUp
    rw [List.pairwise_map]
    exact hm.1.imp fun h => by simpa using h
  · obtain ⟨d, hd, rfl⟩ := List.mem_map.1 hc
    exact hm.2 d hd

/-- After a shift, the old cell `a` stands at `a + n`, and nothing stands below `n`. -/
theorem Memory.read_shiftUp (m : Memory) (n a : Nat) :
    (m.shiftUp n).read a = if n ≤ a then m.read (a - n) else Memory.unlisted := by
  induction m with
  | nil => simp [Memory.shiftUp, Memory.read]
  | cons c m ih =>
    have : Memory.shiftUp n (c :: m) = (c.1 + n, c.2) :: Memory.shiftUp n m := rfl
    rw [this]
    simp only [Memory.read, ih]
    by_cases h : n ≤ a
    · simp only [h, if_true]
      by_cases hc : c.1 = a - n
      · rw [if_pos (by omega), if_pos hc]
      · rw [if_neg (by omega), if_neg hc]
    · rw [if_neg h, if_neg (by omega), if_neg h]

/-! ## The tape as the spec's sequence -/

@[simp] theorem Tape.length_toList (t : Tape) : t.toList.length = t.len := by simp [Tape.toList]

/-! What a tape reads as after each update. -/

theorem Tape.read?_write {t : Tape} (ht : t.wf) (a b : Nat) (v : Byte) :
    (t.write a v).read? b = if b < t.len then some (if a = b then v else t.cells.read b) else none := by
  rw [← Memory.read_write ht.1]; rfl

theorem Tape.read?_append (t : Tape) (n a : Nat) :
    (t.append n).read? a = if a < t.len + n then some (t.cells.read a) else none := rfl

theorem Tape.read?_prepend (t : Tape) (n a : Nat) :
    (t.prepend n).read? a =
      if a < t.len + n then some (if n ≤ a then t.cells.read (a - n) else Memory.unlisted) else none := by
  rw [← Memory.read_shiftUp]; rfl

/-- `MemRead` is indexing the sequence (00_scope.md R13). -/
theorem Tape.getElem?_toList (t : Tape) (a : Nat) : t.toList[a]? = t.read? a := by
  unfold Tape.toList Tape.read?
  split <;> simp_all

/-- `MemWrite` is replacing one element (00_scope.md R13). -/
theorem Tape.toList_write {t : Tape} (ht : t.wf) (a : Nat) (v : Byte) : (t.write a v).toList = t.toList.set a v := by
  refine List.ext_getElem? fun b => ?_
  rw [Tape.getElem?_toList, List.getElem?_set, Tape.getElem?_toList, Tape.length_toList]
  rw [Tape.read?_write ht, Tape.read?]
  split <;> split <;> simp_all

/-- A cell past the listed ones reads as 0. -/
theorem Tape.read_past_end {t : Tape} (ht : t.wf) {a : Nat} (ha : t.len ≤ a) : t.cells.read a = Memory.unlisted :=
  Memory.read_of_not_listed fun c hc => by have := ht.2.1 c hc; omega

/-- Right-edge growth appends zero cells (10_state.md R24). -/
theorem Tape.toList_append {t : Tape} (ht : t.wf) (n : Nat) :
    (t.append n).toList = t.toList ++ List.replicate n 0x00#8 := by
  refine List.ext_getElem? fun b => ?_
  rw [Tape.getElem?_toList, List.getElem?_append, Tape.getElem?_toList, Tape.length_toList, List.getElem?_replicate]
  rw [Tape.read?_append, Tape.read?]
  by_cases hb : b < t.len
  · rw [if_pos hb, if_pos hb, if_pos (by omega)]
  · rw [if_neg hb]
    by_cases h : b < t.len + n
    · rw [if_pos h, if_pos (by omega), Tape.read_past_end ht (by omega)]; rfl
    · rw [if_neg h, if_neg (by omega)]

/-- Left-edge growth prepends zero cells (10_state.md R24). -/
theorem Tape.toList_prepend (t : Tape) (n : Nat) :
    (t.prepend n).toList = List.replicate n 0x00#8 ++ t.toList := by
  refine List.ext_getElem? fun b => ?_
  rw [Tape.getElem?_toList, List.getElem?_append, Tape.getElem?_toList, List.getElem?_replicate, List.length_replicate]
  rw [Tape.read?_prepend, Tape.read?]
  by_cases hb : b < n
  · rw [if_pos hb, if_pos hb, if_pos (by omega), if_neg (by omega)]; rfl
  · rw [if_neg hb, if_pos (by omega : n ≤ b)]
    by_cases h : b < t.len + n
    · rw [if_pos h, if_pos (by omega)]
    · rw [if_neg h, if_neg (by omega)]

theorem Tape.wf_write {t : Tape} (ht : t.wf) {a : Nat} (ha : a < t.len) (v : Byte) : (t.write a v).wf := by
  refine ⟨Memory.wf_write ht.1 a v, fun c hc => ?_, ht.2.2⟩
  rcases Memory.mem_write hc with ⟨rfl, -⟩ | hc
  · exact ha
  · exact ht.2.1 c hc

theorem Tape.wf_append {t : Tape} (ht : t.wf) (n : Nat) : (t.append n).wf :=
  ⟨ht.1, fun c hc => Nat.lt_of_lt_of_le (ht.2.1 c hc) (Nat.le_add_right _ _), Nat.le_trans ht.2.2 (Nat.le_add_right _ _)⟩

theorem Tape.wf_prepend {t : Tape} (ht : t.wf) (n : Nat) : (t.prepend n).wf := by
  refine ⟨Memory.wf_shiftUp ht.1 n, fun c hc => ?_, Nat.le_trans ht.2.2 (Nat.le_add_right _ _)⟩
  obtain ⟨d, hd, rfl⟩ := List.mem_map.1 hc
  have := ht.2.1 d hd
  simpa using this

/-- Two canonical tapes with the same cells are the same data. -/
theorem Memory.ext_of_read {m m' : Memory} (hm : m.wf) (hm' : m'.wf) (h : ∀ a, m.read a = m'.read a) : m = m' := by
  have read_low : ∀ {x : Memory} {a : Nat}, (∀ c ∈ x, a < c.1) → x.read a = Memory.unlisted :=
    fun hl => Memory.read_of_not_listed fun c hc => by have := hl c hc; omega
  induction m generalizing m' with
  | nil =>
    cases m' with
    | nil => rfl
    | cons c m' => exact absurd (by simpa [Memory.read] using (h c.1).symm) (hm'.2 c (by simp))
  | cons c m ih =>
    cases m' with
    | nil => exact absurd (by simpa [Memory.read] using h c.1) (hm.2 c (by simp))
    | cons d m' =>
      obtain ⟨hs, hz⟩ := hm
      obtain ⟨hs', hz'⟩ := hm'
      rw [List.pairwise_cons] at hs hs'
      have hcd : c.1 = d.1 := by
        rcases Nat.lt_trichotomy c.1 d.1 with hlt | heq | hgt
        · have := h c.1
          rw [read_low (x := d :: m') (a := c.1) (by
            intro e he
            rcases List.mem_cons.1 he with rfl | he
            · exact hlt
            · exact Nat.lt_trans hlt (hs'.1 e he))] at this
          exact absurd (by simpa [Memory.read] using this) (hz c (by simp))
        · exact heq
        · have := h d.1
          rw [read_low (x := c :: m) (a := d.1) (by
            intro e he
            rcases List.mem_cons.1 he with rfl | he
            · exact hgt
            · exact Nat.lt_trans hgt (hs.1 e he))] at this
          exact absurd (by simpa [Memory.read] using this.symm) (hz' d (by simp))
      have hval : c.2 = d.2 := by simpa [Memory.read, hcd] using h c.1
      have hrest : m = m' := by
        refine ih ⟨hs.2, fun e he => hz e (by simp [he])⟩ ⟨hs'.2, fun e he => hz' e (by simp [he])⟩ fun a => ?_
        by_cases ha : c.1 = a
        · rw [← ha, read_low hs.1, hcd, read_low hs'.1]
        · have := h a
          simp only [Memory.read] at this
          rwa [if_neg ha, if_neg (hcd ▸ ha)] at this
      rw [hrest, Prod.ext hcd hval]

end Sys2Proof.Machine
end

