-- ==== Sys2Proof/Laws/Ops.lean ====
section
/-! SUPPORT. One lemma per shared operation that says everything it can do, and that each keeps the tape invariant. -/

namespace Sys2Proof.Machine

variable {s t : State}

/-! ## Mode, cell, guard -/

theorem unlessSkipping_normal (h : s.mode = .normal) (body : Host.Outcome State Fault Refusal) :
    s.unlessSkipping body = body := by simp [State.unlessSkipping, h]

theorem unlessSkipping_skipping {o : Nat} (h : s.mode = .skipping o) (body : Host.Outcome State Fault Refusal) :
    s.unlessSkipping body = .next s.advance := by simp [State.unlessSkipping, h]

/-- Everything `unlessSkipping` can answer. -/
theorem unlessSkipping_cases (s : State) (body : Host.Outcome State Fault Refusal) :
    (∃ o, s.mode = .skipping o ∧ s.unlessSkipping body = .next s.advance) ∨
    (s.mode = .normal ∧ s.unlessSkipping body = body) := by
  cases h : s.mode with
  | normal => exact .inr ⟨rfl, unlessSkipping_normal h body⟩
  | skipping o => exact .inl ⟨o, rfl, unlessSkipping_skipping h body⟩

/-- On a legal tape there is a cell under the head (10_state.md R42). -/
theorem cell?_of_tapeInv (h : TapeInv s) : s.cell? = some (s.tape.cells.read s.head) := by
  simp [State.cell?, Tape.read?, h.2]

theorem withCell_of_cell {c : Byte} (h : s.cell? = some c) (body : Byte → Host.Outcome State Fault Refusal) :
    s.withCell body = body c := by simp [State.withCell, h]

/-- Everything `withCell` can do when it answers a next state. -/
theorem withCell_next {body : Byte → Host.Outcome State Fault Refusal} (h : s.withCell body = .next t) :
    ∃ c, s.cell? = some c ∧ body c = .next t := by
  unfold State.withCell at h
  split at h
  next c hc => exact ⟨c, hc, h⟩
  next => cases h

@[simp] theorem loopGuard_eq_true_iff (c : Byte) : loopGuard c = true ↔ c ≠ 0x00#8 := by simp [loopGuard]

/-- An index holds a cell exactly when it is on the tape. -/
theorem Tape.read?_eq_some {t : Tape} {a : Nat} {c : Byte} :
    t.read? a = some c ↔ a < t.len ∧ t.cells.read a = c := by
  unfold Tape.read?
  split <;> simp_all

theorem head_lt_of_cell {c : Byte} (h : s.cell? = some c) : s.head < s.tape.len := (Tape.read?_eq_some.1 h).1

/-! ## Arithmetic (R112, R113) -/

theorem addDelta_toNat (d c : Byte) : (addDelta d c).toNat = (c.toNat + d.toNat) % 256 := by
  simp [addDelta, BitVec.toNat_add]

theorem subtractDelta_toNat (d c : Byte) : (subtractDelta d c).toNat = (c.toNat + (256 - d.toNat)) % 256 := by
  simp [subtractDelta, BitVec.toNat_sub, Nat.add_comm]

theorem addDelta_one (c : Byte) : addDelta 1#8 c = BitVec.ofNat 8 ((c.toNat + 1) % 256) :=
  BitVec.eq_of_toNat_eq (by simp [addDelta_toNat])

theorem subtractDelta_one (c : Byte) : subtractDelta 1#8 c = BitVec.ofNat 8 ((c.toNat + 255) % 256) :=
  BitVec.eq_of_toNat_eq (by simp [subtractDelta_toNat])

/-! ## Head movement (R120 to R122) -/

/-- Right appends one cell at the right edge and none elsewhere. -/
theorem growRight_one (h : s.head < s.tape.len) :
    s.growRight 1 = if s.head + 1 = s.tape.len then 1 else 0 := by
  unfold State.growRight
  split <;> omega

/-- Left prepends one cell at index 0 and none elsewhere. -/
theorem growLeft_one (s : State) : s.growLeft 1 = if s.head = 0 then 1 else 0 := by
  unfold State.growLeft
  split <;> omega

/-- When the tape may grow. -/
theorem mayGrow_eq_true_iff (s : State) (n : Nat) :
    s.mayGrow n = true ↔ n = 0 ∨ ∀ m ∈ s.realisation.maxTapeCells, s.tape.len + n ≤ m := by
  unfold State.mayGrow
  cases s.realisation.maxTapeCells <;> simp

/-- When the loop stack may take an entry. -/
theorem mayPush_eq_true_iff (s : State) :
    s.mayPush = true ↔ ∀ m ∈ s.realisation.maxLoopDepth, s.lstack.length + 1 ≤ m := by
  unfold State.mayPush
  cases s.realisation.maxLoopDepth <;> simp

theorem tapeInv_setCell (h : TapeInv s) (v : Byte) : TapeInv (s.setCell v) := ⟨Tape.wf_write h.1 h.2 v, h.2⟩

theorem tapeInv_shiftRight (h : TapeInv s) (n : Nat) : TapeInv (s.shiftRight n) := by
  refine ⟨Tape.wf_append h.1 _, ?_⟩
  have := h.2
  simp only [State.shiftRight_head, State.shiftRight_tape, Tape.append_len, State.growRight]
  omega

theorem tapeInv_shiftLeft (h : TapeInv s) (n : Nat) : TapeInv (s.shiftLeft n) := by
  refine ⟨Tape.wf_prepend h.1 _, ?_⟩
  have := h.2
  simp only [State.shiftLeft_head, State.shiftLeft_tape, Tape.prepend_len, State.growLeft]
  omega

/-! ## The cell at a distance from the head (R25, R26) -/

/-- On a legal tape a distance to the left of index 0 or past the last cell reads 0, any other reads the cell there. -/
theorem cellAt_eq (h : TapeInv s) (d : Int) :
    cellAt s d = if 0 ≤ (s.head : Int) + d then s.tape.cells.read ((s.head : Int) + d).toNat else 0x00#8 := by
  unfold cellAt
  split
  · unfold Tape.read?
    split
    · rfl
    · rw [Tape.read_past_end h.1 (by omega)]; rfl
  · rfl

/-- The cells at a distance depend on the tape and the head alone. -/
theorem cellAt_congr (h1 : t.tape = s.tape) (h2 : t.head = s.head) (d : Int) : cellAt t d = cellAt s d := by
  simp [cellAt, h1, h2]

@[simp] theorem cellAt_advance (s : State) (d : Int) : cellAt s.advance d = cellAt s d := cellAt_congr rfl rfl d

/-- The cell under the head is the cell at distance 0. -/
theorem cell?_eq_cellAt (h : TapeInv s) : s.cell? = some (cellAt s 0) := by
  rw [cell?_of_tapeInv h, cellAt_eq h]; simp

/-- In abstract positions Right is +1, with no edge case (42_head_ops.md R123). -/
theorem cellAt_shiftRight (h : TapeInv s) (n : Nat) (d : Int) : cellAt (s.shiftRight n) d = cellAt s (d + n) := by
  have e : ((s.shiftRight n).head : Int) + d = (s.head : Int) + (d + n) := by rw [State.shiftRight_head]; omega
  rw [cellAt_eq (tapeInv_shiftRight h n), cellAt_eq h, e]
  rfl

/-- In abstract positions Left is -1, with no edge case (42_head_ops.md R123). -/
theorem cellAt_shiftLeft (h : TapeInv s) (n : Nat) (d : Int) : cellAt (s.shiftLeft n) d = cellAt s (d - n) := by
  rw [cellAt_eq (tapeInv_shiftLeft h n), cellAt_eq h]
  simp only [State.shiftLeft_head, State.shiftLeft_tape, Tape.prepend_cells, Memory.read_shiftUp, State.growLeft]
  by_cases h1 : 0 ≤ (s.head : Int) + (d - n)
  · rw [if_pos h1, if_pos (by omega), if_pos (by omega)]
    congr 1; omega
  · rw [if_neg h1]
    split
    · rw [if_neg (by omega)]; rfl
    · rfl

/-- SetCell changes the cell at distance 0 and no other. -/
theorem cellAt_setCell (h : TapeInv s) (v : Byte) (d : Int) :
    cellAt (s.setCell v) d = if d = 0 then v else cellAt s d := by
  rw [cellAt_eq (tapeInv_setCell h v), cellAt_eq h]
  simp only [State.setCell_head, State.setCell_tape, Tape.write_cells, Memory.read_write h.1.1]
  by_cases hd : d = 0
  · subst hd; simp
  · rw [if_neg hd]
    split
    · rw [if_neg (by omega)]
    · rfl

/-! ## The loop stack (R30, R140 to R144) -/

/-- The pop fails exactly on the empty stack. -/
theorem popLoop_eq_none : s.popLoop = none ↔ s.lstack = [] := by
  unfold State.popLoop
  cases h : s.lstack.getLast? with
  | none => simpa using List.getLast?_eq_none_iff.1 h
  | some p => simp; rintro hl; simp [hl] at h

/-- Else it takes the top entry off and changes nothing else. -/
theorem popLoop_eq_some {p : Nat} :
    s.popLoop = some (p, t) ↔ ∃ st, s.lstack = st ++ [p] ∧ t = { s with lstack := st } := by
  unfold State.popLoop
  constructor
  · intro h
    split at h
    next => cases h
    next q hq =>
      cases h
      obtain ⟨st, hst⟩ := List.getLast?_eq_some_iff.1 hq
      exact ⟨st, hst, by simp [hst]⟩
  · rintro ⟨st, hst, rfl⟩
    simp [hst]

/-! ## The ports (R173, R174, R178) -/

/-- The input transaction waits exactly while the host has given no answer. -/
theorem inRead_eq_none : s.inRead = none ↔ s.ports.inAnswers = [] := by
  unfold State.inRead
  split <;> simp_all

/-- Else it takes one answer, ends the wait, and an InByte answer joins the input stream. -/
theorem inRead_eq_some {a : InAnswer} :
    s.inRead = some (a, t) ↔ ∃ rest, s.ports.inAnswers = a :: rest ∧
      t = { s with
        wait := none
        ports := { s.ports with inAnswers := rest, inStream := s.ports.inStream ++ a.bytes } } := by
  unfold State.inRead
  split
  next h => simp [h]
  next b rest h =>
    rw [h]
    constructor
    · intro h'; cases h'; exact ⟨rest, rfl, rfl⟩
    · rintro ⟨rest', h', rfl⟩; cases h'; rfl

/-- The output transaction waits exactly while the host has given no answer. -/
theorem outWrite_eq_none {b : Byte} : s.outWrite b = none ↔ s.ports.outAnswers = [] := by
  unfold State.outWrite
  split <;> simp_all

/-- Else it takes one answer, ends the wait, and the byte joins the output stream if the answer is OutOk. -/
theorem outWrite_eq_some {b : Byte} {a : OutAnswer} :
    s.outWrite b = some (a, t) ↔ ∃ rest, s.ports.outAnswers = a :: rest ∧
      t = { s with
        wait := none
        ports := { s.ports with outAnswers := rest, outStream := s.ports.outStream ++ a.bytes b } } := by
  unfold State.outWrite
  split
  next h => simp [h]
  next c rest h =>
    rw [h]
    constructor
    · intro h'; cases h'; exact ⟨rest, rfl, rfl⟩
    · rintro ⟨rest', h', rfl⟩; cases h'; rfl

end Sys2Proof.Machine
end

