-- ==== Sys2Proof/Laws/Exec.lean ====
section
/-! SUPPORT. Inversion: for each meaning and for the step, everything it can do when it answers a next state. Invariants are
derived from these, without unfolding a meaning again. -/

namespace Sys2Proof.Machine

variable {s t : State}

theorem execAdd_next (h : execAdd s = .next t) :
    (∃ o, s.mode = .skipping o ∧ t = s.advance) ∨
    (s.mode = .normal ∧ ∃ c, s.cell? = some c ∧ t = (s.setCell (addDelta 1#8 c)).advance) := by
  unfold execAdd at h
  rcases unlessSkipping_cases s (s.withCell fun c => .next (s.setCell (addDelta 1#8 c)).advance) with ⟨o, hm, e⟩ | ⟨hm, e⟩
  · rw [e] at h; cases h; exact .inl ⟨o, hm, rfl⟩
  · rw [e] at h
    obtain ⟨c, hc, h⟩ := withCell_next h
    cases h; exact .inr ⟨hm, c, hc, rfl⟩

theorem execSubtract_next (h : execSubtract s = .next t) :
    (∃ o, s.mode = .skipping o ∧ t = s.advance) ∨
    (s.mode = .normal ∧ ∃ c, s.cell? = some c ∧ t = (s.setCell (subtractDelta 1#8 c)).advance) := by
  unfold execSubtract at h
  rcases unlessSkipping_cases s (s.withCell fun c => .next (s.setCell (subtractDelta 1#8 c)).advance) with ⟨o, hm, e⟩ | ⟨hm, e⟩
  · rw [e] at h; cases h; exact .inl ⟨o, hm, rfl⟩
  · rw [e] at h
    obtain ⟨c, hc, h⟩ := withCell_next h
    cases h; exact .inr ⟨hm, c, hc, rfl⟩

theorem execRight_next (h : execRight s = .next t) :
    (∃ o, s.mode = .skipping o ∧ t = s.advance) ∨
    (s.mode = .normal ∧ s.mayGrow (s.growRight 1) = true ∧ t = (s.shiftRight 1).advance) ∨
    (s.mode = .normal ∧ s.mayGrow (s.growRight 1) = false ∧ t = s.raise .tapeCapacityExceeded .none) := by
  unfold execRight at h
  cases hm : s.mode with
  | skipping o => rw [unlessSkipping_skipping hm] at h; cases h; exact .inl ⟨o, rfl, rfl⟩
  | normal =>
    rw [unlessSkipping_normal hm] at h
    split at h
    next hg => cases h; exact .inr (.inl ⟨rfl, hg, rfl⟩)
    next hg => cases h; exact .inr (.inr ⟨rfl, by simpa using hg, rfl⟩)

theorem execLeft_next (h : execLeft s = .next t) :
    (∃ o, s.mode = .skipping o ∧ t = s.advance) ∨
    (s.mode = .normal ∧ s.mayGrow (s.growLeft 1) = true ∧ t = (s.shiftLeft 1).advance) ∨
    (s.mode = .normal ∧ s.mayGrow (s.growLeft 1) = false ∧ t = s.raise .tapeCapacityExceeded .none) := by
  unfold execLeft at h
  cases hm : s.mode with
  | skipping o => rw [unlessSkipping_skipping hm] at h; cases h; exact .inl ⟨o, rfl, rfl⟩
  | normal =>
    rw [unlessSkipping_normal hm] at h
    split at h
    next hg => cases h; exact .inr (.inl ⟨rfl, hg, rfl⟩)
    next hg => cases h; exact .inr (.inr ⟨rfl, by simpa using hg, rfl⟩)

theorem execRead_next (h : execRead s = .next t) :
    (∃ o, s.mode = .skipping o ∧ t = s.advance) ∨
    (s.mode = .normal ∧ (∃ c, s.cell? = some c) ∧
      ((s.ports.inAnswers = [] ∧ t = s.await .input) ∨
       ∃ a rest u, s.ports.inAnswers = a :: rest ∧ s.inRead = some (a, u) ∧
        ((∃ b, a = .byte b ∧ t = (u.setCell b).advance) ∨
         (a = .exhausted ∧ t = u.raise .inputFailure .exhausted) ∨
         (a = .error ∧ t = u.raise .inputFailure .channelError)))) := by
  unfold execRead at h
  cases hm : s.mode with
  | skipping o => rw [unlessSkipping_skipping hm] at h; cases h; exact .inl ⟨o, rfl, rfl⟩
  | normal =>
    rw [unlessSkipping_normal hm] at h
    obtain ⟨c, hc, h⟩ := withCell_next h
    refine .inr ⟨rfl, ⟨c, hc⟩, ?_⟩
    cases hi : s.inRead with
    | none => simp only [hi] at h; cases h; exact .inl ⟨inRead_eq_none.1 hi, rfl⟩
    | some x =>
      obtain ⟨a, u⟩ := x
      obtain ⟨rest, hr, -⟩ := inRead_eq_some.1 hi
      refine .inr ⟨a, rest, u, hr, rfl, ?_⟩
      cases a <;> simp only [hi] at h <;> cases h
      · exact .inl ⟨_, rfl, rfl⟩
      · exact .inr (.inl ⟨rfl, rfl⟩)
      · exact .inr (.inr ⟨rfl, rfl⟩)

theorem execWrite_next (h : execWrite s = .next t) :
    (∃ o, s.mode = .skipping o ∧ t = s.advance) ∨
    (s.mode = .normal ∧ ∃ c, s.cell? = some c ∧
      ((s.ports.outAnswers = [] ∧ t = s.await (.output c)) ∨
       ∃ a rest u, s.ports.outAnswers = a :: rest ∧ s.outWrite c = some (a, u) ∧
        ((a = .ok ∧ t = u.advance) ∨ (a = .error ∧ t = u.raise .outputFailure .channelError)))) := by
  unfold execWrite at h
  cases hm : s.mode with
  | skipping o => rw [unlessSkipping_skipping hm] at h; cases h; exact .inl ⟨o, rfl, rfl⟩
  | normal =>
    rw [unlessSkipping_normal hm] at h
    obtain ⟨c, hc, h⟩ := withCell_next h
    refine .inr ⟨rfl, c, hc, ?_⟩
    cases hi : s.outWrite c with
    | none => simp only [hi] at h; cases h; exact .inl ⟨outWrite_eq_none.1 hi, rfl⟩
    | some x =>
      obtain ⟨a, u⟩ := x
      obtain ⟨rest, hr, -⟩ := outWrite_eq_some.1 hi
      refine .inr ⟨a, rest, u, hr, rfl, ?_⟩
      cases a <;> simp only [hi] at h <;> cases h
      · exact .inl ⟨rfl, rfl⟩
      · exact .inr ⟨rfl, rfl⟩

theorem execLoopStart_next (h : execLoopStart s = .next t) :
    (s.mayPush = false ∧ t = s.raise .loopStackOverflow .none) ∨
    (s.mayPush = true ∧
      ((∃ o, s.mode = .skipping o ∧ t = s.pushLoop.advance) ∨
       (s.mode = .normal ∧ ∃ c, s.cell? = some c ∧
        ((c ≠ 0x00#8 ∧ t = s.pushLoop.advance) ∨
         (c = 0x00#8 ∧ t = { s.pushLoop with mode := .skipping s.ip }.advance))))) := by
  unfold execLoopStart at h
  split at h
  next hp =>
    refine .inr ⟨hp, ?_⟩
    split at h
    next o hm => cases h; exact .inl ⟨o, hm, rfl⟩
    next hm =>
      obtain ⟨c, hc, h⟩ := withCell_next h
      refine .inr ⟨hm, c, hc, ?_⟩
      split at h
      next hg => cases h; exact .inl ⟨(loopGuard_eq_true_iff c).1 hg, rfl⟩
      next hg => cases h; exact .inr ⟨by simpa using hg, rfl⟩
  next hp => cases h; exact .inl ⟨by simpa using hp, rfl⟩

theorem execLoopEnd_next (h : execLoopEnd s = .next t) :
    (s.lstack = [] ∧ t = s.raise .unmatchedLoopEnd .none) ∨
    ∃ st p, s.lstack = st ++ [p] ∧
      ((∃ o, s.mode = .skipping o ∧ p = o ∧ t = { s with lstack := st, mode := .normal }.advance) ∨
       (∃ o, s.mode = .skipping o ∧ p ≠ o ∧ t = { s with lstack := st }.advance) ∨
       (s.mode = .normal ∧ ∃ c, s.cell? = some c ∧
        ((c ≠ 0x00#8 ∧ t = { s with lstack := st, ip := p }) ∨
         (c = 0x00#8 ∧ t = { s with lstack := st }.advance)))) := by
  unfold execLoopEnd at h
  cases hp : s.popLoop with
  | none => simp only [hp] at h; cases h; exact .inl ⟨popLoop_eq_none.1 hp, rfl⟩
  | some x =>
    obtain ⟨p, u⟩ := x
    obtain ⟨st, hst, rfl⟩ := popLoop_eq_some.1 hp
    simp only [hp] at h
    refine .inr ⟨st, p, hst, ?_⟩
    cases hm : s.mode with
    | skipping o =>
      simp only [hm] at h
      split at h
      next hpo => cases h; exact .inl ⟨o, rfl, hpo, rfl⟩
      next hpo => cases h; exact .inr (.inl ⟨o, rfl, hpo, rfl⟩)
    | normal =>
      simp only [hm] at h
      obtain ⟨c, hc, h⟩ := withCell_next h
      refine .inr (.inr ⟨rfl, c, by simpa [State.cell?] using hc, ?_⟩)
      split at h
      next hg => cases h; exact .inl ⟨(loopGuard_eq_true_iff c).1 hg, rfl⟩
      next hg => cases h; exact .inr ⟨by simpa using hg, rfl⟩

/-- Everything a step can do when it answers a next state: the end check, or the fetched operation. -/
theorem step_next (h : step s = .next t) :
    s.status = .running ∧ ((s.fetch = none ∧ t = s) ∨ ∃ i, s.fetch = some i ∧ exec i s = .next t) := by
  unfold step at h
  split at h
  next => cases h
  next hs =>
    refine ⟨hs, ?_⟩
    split at h
    next hf => cases h; exact .inl ⟨hf, rfl⟩
    next i hf => exact .inr ⟨i, hf, h⟩

/-- A fetch finds an operation exactly while ip is below N. -/
theorem fetch_eq_none : s.fetch = none ↔ s.prog.length ≤ s.ip := by simp [State.fetch]

theorem fetch_lt {i : Instr} (h : s.fetch = some i) : s.ip < s.prog.length := (List.getElem?_eq_some_iff.1 h).1

end Sys2Proof.Machine
end

