-- ==== Sys2Proof/Laws/Effect.lean ====
section
/-! SUPPORT. All the ways an operation can end in a next state, in one place: twenty-two endings, the state after written out.
Every rule about all operations is a case analysis over `Effect`. -/

namespace Sys2Proof.Machine

/-- The engine after an answered input request (60_exceptions.md R173). -/
def State.tookInput (s : State) (rest : List InAnswer) (bytes : List Byte) : State :=
  { s with wait := none, ports := { s.ports with inAnswers := rest, inStream := s.ports.inStream ++ bytes } }

/-- The engine after an answered output request (60_exceptions.md R174). -/
def State.tookOutput (s : State) (rest : List OutAnswer) (bytes : List Byte) : State :=
  { s with wait := none, ports := { s.ports with outAnswers := rest, outStream := s.ports.outStream ++ bytes } }

@[simp] theorem State.tookInput_tape (s : State) (r : List InAnswer) (b : List Byte) : (s.tookInput r b).tape = s.tape := rfl
@[simp] theorem State.tookInput_head (s : State) (r : List InAnswer) (b : List Byte) : (s.tookInput r b).head = s.head := rfl
@[simp] theorem State.tookInput_prog (s : State) (r : List InAnswer) (b : List Byte) : (s.tookInput r b).prog = s.prog := rfl
@[simp] theorem State.tookInput_ip (s : State) (r : List InAnswer) (b : List Byte) : (s.tookInput r b).ip = s.ip := rfl
@[simp] theorem State.tookInput_lstack (s : State) (r : List InAnswer) (b : List Byte) : (s.tookInput r b).lstack = s.lstack := rfl
@[simp] theorem State.tookInput_mode (s : State) (r : List InAnswer) (b : List Byte) : (s.tookInput r b).mode = s.mode := rfl
@[simp] theorem State.tookInput_status (s : State) (r : List InAnswer) (b : List Byte) : (s.tookInput r b).status = s.status := rfl
@[simp] theorem State.tookInput_wait (s : State) (r : List InAnswer) (b : List Byte) : (s.tookInput r b).wait = none := rfl
@[simp] theorem State.tookInput_ports (s : State) (r : List InAnswer) (b : List Byte) : (s.tookInput r b).ports = { s.ports with inAnswers := r, inStream := s.ports.inStream ++ b } := rfl
@[simp] theorem State.tookInput_realisation (s : State) (r : List InAnswer) (b : List Byte) : (s.tookInput r b).realisation = s.realisation := rfl

@[simp] theorem State.tookOutput_tape (s : State) (r : List OutAnswer) (b : List Byte) : (s.tookOutput r b).tape = s.tape := rfl
@[simp] theorem State.tookOutput_head (s : State) (r : List OutAnswer) (b : List Byte) : (s.tookOutput r b).head = s.head := rfl
@[simp] theorem State.tookOutput_prog (s : State) (r : List OutAnswer) (b : List Byte) : (s.tookOutput r b).prog = s.prog := rfl
@[simp] theorem State.tookOutput_ip (s : State) (r : List OutAnswer) (b : List Byte) : (s.tookOutput r b).ip = s.ip := rfl
@[simp] theorem State.tookOutput_lstack (s : State) (r : List OutAnswer) (b : List Byte) : (s.tookOutput r b).lstack = s.lstack := rfl
@[simp] theorem State.tookOutput_mode (s : State) (r : List OutAnswer) (b : List Byte) : (s.tookOutput r b).mode = s.mode := rfl
@[simp] theorem State.tookOutput_status (s : State) (r : List OutAnswer) (b : List Byte) : (s.tookOutput r b).status = s.status := rfl
@[simp] theorem State.tookOutput_wait (s : State) (r : List OutAnswer) (b : List Byte) : (s.tookOutput r b).wait = none := rfl
@[simp] theorem State.tookOutput_ports (s : State) (r : List OutAnswer) (b : List Byte) : (s.tookOutput r b).ports = { s.ports with outAnswers := r, outStream := s.ports.outStream ++ b } := rfl
@[simp] theorem State.tookOutput_realisation (s : State) (r : List OutAnswer) (b : List Byte) : (s.tookOutput r b).realisation = s.realisation := rfl

@[simp] theorem cellAt_tookInput (s : State) (r : List InAnswer) (b : List Byte) (d : Int) :
    cellAt (s.tookInput r b) d = cellAt s d := cellAt_congr rfl rfl d

@[simp] theorem cellAt_tookOutput (s : State) (r : List OutAnswer) (b : List Byte) (d : Int) :
    cellAt (s.tookOutput r b) d = cellAt s d := cellAt_congr rfl rfl d

/-- `Effect s i t`: operation `i` executed in `s` ends in `t`. -/
inductive Effect (s : State) : Instr → State → Prop where
  | skipped {i : Instr} {o : Nat} (hm : s.mode = .skipping o) (hs : i ≠ .loopStart) (he : i ≠ .loopEnd) : Effect s i s.advance
  | added {c : Byte} (hm : s.mode = .normal) (hc : s.cell? = some c) : Effect s .add (s.setCell (addDelta 1#8 c)).advance
  | subtracted {c : Byte} (hm : s.mode = .normal) (hc : s.cell? = some c) :
      Effect s .subtract (s.setCell (subtractDelta 1#8 c)).advance
  | movedRight (hm : s.mode = .normal) (hg : s.mayGrow (s.growRight 1) = true) : Effect s .right (s.shiftRight 1).advance
  | movedLeft (hm : s.mode = .normal) (hg : s.mayGrow (s.growLeft 1) = true) : Effect s .left (s.shiftLeft 1).advance
  | noRoomRight (hm : s.mode = .normal) (hg : s.mayGrow (s.growRight 1) = false) :
      Effect s .right (s.raise .tapeCapacityExceeded .none)
  | noRoomLeft (hm : s.mode = .normal) (hg : s.mayGrow (s.growLeft 1) = false) :
      Effect s .left (s.raise .tapeCapacityExceeded .none)
  | readWaits {c : Byte} (hm : s.mode = .normal) (hc : s.cell? = some c) (hi : s.ports.inAnswers = []) :
      Effect s .read (s.await .input)
  | readByte {c b : Byte} {rest : List InAnswer} (hm : s.mode = .normal) (hc : s.cell? = some c)
      (hi : s.ports.inAnswers = .byte b :: rest) : Effect s .read ((s.tookInput rest [b]).setCell b).advance
  | readExhausted {c : Byte} {rest : List InAnswer} (hm : s.mode = .normal) (hc : s.cell? = some c)
      (hi : s.ports.inAnswers = .exhausted :: rest) : Effect s .read ((s.tookInput rest []).raise .inputFailure .exhausted)
  | readError {c : Byte} {rest : List InAnswer} (hm : s.mode = .normal) (hc : s.cell? = some c)
      (hi : s.ports.inAnswers = .error :: rest) : Effect s .read ((s.tookInput rest []).raise .inputFailure .channelError)
  | writeWaits {c : Byte} (hm : s.mode = .normal) (hc : s.cell? = some c) (ho : s.ports.outAnswers = []) :
      Effect s .write (s.await (.output c))
  | wrote {c : Byte} {rest : List OutAnswer} (hm : s.mode = .normal) (hc : s.cell? = some c)
      (ho : s.ports.outAnswers = .ok :: rest) : Effect s .write (s.tookOutput rest [c]).advance
  | writeError {c : Byte} {rest : List OutAnswer} (hm : s.mode = .normal) (hc : s.cell? = some c)
      (ho : s.ports.outAnswers = .error :: rest) : Effect s .write ((s.tookOutput rest []).raise .outputFailure .channelError)
  | noRoomPush (hp : s.mayPush = false) : Effect s .loopStart (s.raise .loopStackOverflow .none)
  | pushedSkipping {o : Nat} (hp : s.mayPush = true) (hm : s.mode = .skipping o) : Effect s .loopStart s.pushLoop.advance
  | entered {c : Byte} (hp : s.mayPush = true) (hm : s.mode = .normal) (hc : s.cell? = some c) (h0 : c ≠ 0x00#8) :
      Effect s .loopStart s.pushLoop.advance
  | skipBegan (hp : s.mayPush = true) (hm : s.mode = .normal) (hc : s.cell? = some 0x00#8) :
      Effect s .loopStart { s.pushLoop with mode := .skipping s.ip }.advance
  | unmatched (hl : s.lstack = []) : Effect s .loopEnd (s.raise .unmatchedLoopEnd .none)
  | skipEnded {st : List Nat} {p : Nat} (hm : s.mode = .skipping p) (hl : s.lstack = st ++ [p]) :
      Effect s .loopEnd { s with lstack := st, mode := .normal }.advance
  | skipWentOn {st : List Nat} {p o : Nat} (hm : s.mode = .skipping o) (hl : s.lstack = st ++ [p]) (hp : p ≠ o) :
      Effect s .loopEnd { s with lstack := st }.advance
  | jumpedBack {st : List Nat} {p : Nat} {c : Byte} (hm : s.mode = .normal) (hl : s.lstack = st ++ [p])
      (hc : s.cell? = some c) (h0 : c ≠ 0x00#8) : Effect s .loopEnd { s with lstack := st, ip := p }
  | exited {st : List Nat} {p : Nat} (hm : s.mode = .normal) (hl : s.lstack = st ++ [p]) (hc : s.cell? = some 0x00#8) :
      Effect s .loopEnd { s with lstack := st }.advance

/-- Whatever an operation does, it is one of the endings. -/
theorem exec_effect {s t : State} {i : Instr} (h : exec i s = .next t) : Effect s i t := by
  cases i with
  | add =>
    rcases execAdd_next h with ⟨o, hm, rfl⟩ | ⟨hm, c, hc, rfl⟩
    · exact .skipped hm (by decide) (by decide)
    · exact .added hm hc
  | subtract =>
    rcases execSubtract_next h with ⟨o, hm, rfl⟩ | ⟨hm, c, hc, rfl⟩
    · exact .skipped hm (by decide) (by decide)
    · exact .subtracted hm hc
  | left =>
    rcases execLeft_next h with ⟨o, hm, rfl⟩ | ⟨hm, hg, rfl⟩ | ⟨hm, hg, rfl⟩
    · exact .skipped hm (by decide) (by decide)
    · exact .movedLeft hm hg
    · exact .noRoomLeft hm hg
  | right =>
    rcases execRight_next h with ⟨o, hm, rfl⟩ | ⟨hm, hg, rfl⟩ | ⟨hm, hg, rfl⟩
    · exact .skipped hm (by decide) (by decide)
    · exact .movedRight hm hg
    · exact .noRoomRight hm hg
  | read =>
    rcases execRead_next h with ⟨o, hm, rfl⟩ | ⟨hm, ⟨c, hc⟩, ⟨hi, rfl⟩ | ⟨a, rest, u, hi, hu, hcases⟩⟩
    · exact .skipped hm (by decide) (by decide)
    · exact .readWaits hm hc hi
    · obtain ⟨rest', hi', rfl⟩ := inRead_eq_some.1 hu
      obtain rfl : rest = rest' := by rw [hi] at hi'; exact (List.cons.inj hi').2
      rcases hcases with ⟨b, rfl, rfl⟩ | ⟨rfl, rfl⟩ | ⟨rfl, rfl⟩
      · exact .readByte hm hc hi
      · exact .readExhausted hm hc hi
      · exact .readError hm hc hi
  | write =>
    rcases execWrite_next h with ⟨o, hm, rfl⟩ | ⟨hm, c, hc, ⟨ho, rfl⟩ | ⟨a, rest, u, ho, hu, hcases⟩⟩
    · exact .skipped hm (by decide) (by decide)
    · exact .writeWaits hm hc ho
    · obtain ⟨rest', ho', rfl⟩ := outWrite_eq_some.1 hu
      obtain rfl : rest = rest' := by rw [ho] at ho'; exact (List.cons.inj ho').2
      rcases hcases with ⟨rfl, rfl⟩ | ⟨rfl, rfl⟩
      · exact .wrote hm hc ho
      · exact .writeError hm hc ho
  | loopStart =>
    rcases execLoopStart_next h with ⟨hp, rfl⟩ | ⟨hp, ⟨o, hm, rfl⟩ | ⟨hm, c, hc, ⟨h0, rfl⟩ | ⟨rfl, rfl⟩⟩⟩
    · exact .noRoomPush hp
    · exact .pushedSkipping hp hm
    · exact .entered hp hm hc h0
    · exact .skipBegan hp hm hc
  | loopEnd =>
    rcases execLoopEnd_next h with ⟨hl, rfl⟩ | ⟨st, p, hl, ⟨o, hm, rfl, rfl⟩ | ⟨o, hm, hp, rfl⟩ | ⟨hm, c, hc, ⟨h0, rfl⟩ | ⟨rfl, rfl⟩⟩⟩
    · exact .unmatched hl
    · exact .skipEnded hm hl
    · exact .skipWentOn hm hl hp
    · exact .jumpedBack hm hl hc h0
    · exact .exited hm hl hc

/-- A step that answers a next state is the end check or one of the endings of the fetched operation. -/
theorem step_effect {s t : State} (h : step s = .next t) :
    s.status = .running ∧ ((s.fetch = none ∧ t = s) ∨ ∃ i, s.fetch = some i ∧ Effect s i t) := by
  obtain ⟨hs, h | ⟨i, hi, he⟩⟩ := step_next h
  · exact ⟨hs, .inl h⟩
  · exact ⟨hs, .inr ⟨i, hi, exec_effect he⟩⟩

end Sys2Proof.Machine
end

