-- ==== Sys2Proof/Laws/Brackets.lean ====
section
/-! SUPPORT. Parenthesis matching of the program text (40_execution_cycle.md R105), and steps one after the other. -/

namespace Sys2Proof.Machine

variable {s t : State} {i : Instr}

theorem openFrom_append (n : Nat) (st : List Nat) (p q : Program) :
    openFrom n st (p ++ q) = (openFrom n st p).bind fun st' => openFrom (n + p.length) st' q := by
  induction p generalizing n st with
  | nil => simp [openFrom]
  | cons i p ih =>
    have e : n + (i :: p).length = n + 1 + p.length := by simp; omega
    rw [e]
    cases i <;> simp only [List.cons_append, openFrom] <;> first | exact ih _ _ | skip
    split
    · rfl
    · exact ih _ _

/-- One more operation of text. -/
theorem openBefore_succ {p : Program} {k : Nat} (h : p[k]? = some i) :
    openBefore p (k + 1) = (openBefore p k).bind fun st => openFrom k st [i] := by
  obtain ⟨hk, rfl⟩ := List.getElem?_eq_some_iff.1 h
  unfold openBefore
  rw [List.take_add_one, openFrom_append]; simp [h, Nat.min_eq_left (Nat.le_of_lt hk)]

/-- An entry of what the text leaves open is a LoopStart before that point, and what lies below it on the stack is what the
text leaves open before the entry. -/
theorem openBefore_entry {p : Program} {k e : Nat} {st a b : List Nat} (hk : k ≤ p.length) (h : openBefore p k = some st)
    (hs : st = a ++ e :: b) : openBefore p e = some a ∧ p[e]? = some .loopStart ∧ e < k := by
  induction k generalizing st a b with
  | zero => simp [openBefore, openFrom] at h; subst h; simp at hs
  | succ k ih =>
    have hk' : k < p.length := hk
    have hi := List.getElem?_eq_getElem hk'
    rw [openBefore_succ hi] at h
    cases ho : openBefore p k with
    | none => rw [ho] at h; cases h
    | some st0 =>
      rw [ho] at h; simp only [Option.bind_some] at h
      have unchanged : st0 = st → openBefore p e = some a ∧ p[e]? = some .loopStart ∧ e < k + 1 := by
        rintro rfl
        obtain ⟨x, y, z⟩ := ih (by omega) ho hs
        exact ⟨x, y, by omega⟩
      cases hpi : p[k] <;> rw [hpi] at h hi <;> simp only [openFrom] at h
      case loopStart =>
        simp at h; subst h
        rcases List.eq_nil_or_concat b with rfl | ⟨b', x, rfl⟩
        · obtain ⟨rfl, h2⟩ := List.append_inj' hs rfl
          simp at h2; subst h2; exact ⟨ho, hi, by omega⟩
        · have below : st0 = a ++ e :: b' := by
            have : st0 ++ [k] = (a ++ e :: b') ++ [x] := by rw [hs]; simp
            exact (List.append_inj' this rfl).1
          obtain ⟨x, y, z⟩ := ih (by omega) ho below
          exact ⟨x, y, by omega⟩
      case loopEnd =>
        split at h
        · cases h
        next hne =>
          simp at h; subst h
          have above : st0 = a ++ e :: (b ++ [st0.getLast hne]) := by
            conv_lhs => rw [← List.dropLast_append_getLast hne, hs]
            simp
          obtain ⟨x, y, z⟩ := ih (by omega) ho above
          exact ⟨x, y, by omega⟩
      all_goals exact unchanged (by simpa using h)

/-- A balanced text opens nothing that it does not close. -/
theorem openFrom_balanced {body : Program} (h : Balanced body) (n : Nat) (st : List Nat) : openFrom n st body = some st := by
  induction h generalizing n st with
  | nil => rfl
  | @plain i rest hs he _ ih => cases i <;> simp_all [openFrom]
  | loop hb hr ihb ihr => simp only [openFrom]; rw [openFrom_append, ihb]; simp [openFrom, ihr]

theorem step_of_fetch (h : s.status = .running) (hf : s.fetch = some i) : step s = exec i s := by
  simp only [step, h, hf]

theorem stepTimes_add {a b : Nat} (h : stepTimes a s = .next t) : stepTimes (a + b) s = stepTimes b t := by
  induction a generalizing s with
  | zero => cases h; simp
  | succ a ih =>
    rw [Nat.succ_add]; simp only [stepTimes] at h ⊢
    split at h
    · exact ih h
    · cases h
    · cases h

end Sys2Proof.Machine
end

