-- ==== Sys2Proof/Laws/Load.lean ====
section
/-! SUPPORT. The decoder and the two loaders: what one byte contributes to the program store (30_encoding.md R75, R76, R81 to
R83). -/

namespace Sys2Proof

/-- Loading works byte by byte: positions after a piece of source do not depend on what the piece says, only on how many
operations it holds. -/
theorem loadSource_append (a b : List Byte) : loadSource (a ++ b) = loadSource a ++ loadSource b := by
  induction a with
  | nil => rfl
  | cons x a ih => simp only [List.cons_append, loadSource]; split <;> simp [ih]

theorem loadSource_cons_of_some {b : Byte} {i : Instr} (h : decode b = some i) (rest : List Byte) :
    loadSource (b :: rest) = i :: loadSource rest := by simp [loadSource, h]

theorem loadSource_cons_of_none {b : Byte} (h : decode b = none) (rest : List Byte) :
    loadSource (b :: rest) = loadSource rest := by simp [loadSource, h]

/-- A byte that decodes is the byte of its operation: no two bytes share an operation. -/
theorem encode_of_decode {b : Byte} {i : Instr} (h : decode b = some i) : encode i = b := by
  have all : ∀ c : Byte, decode c ≠ none → (decode c).map encode = some c := by decide
  simpa [h] using all b (by simp [h])

/-- No byte of a multi-byte character is an operation (30_encoding.md R82). -/
theorem decode_of_high {b : Byte} (h : 0x80 ≤ b.toNat) : decode b = none := by
  have all : ∀ c : Byte, 0x80 ≤ c.toNat → decode c = none := by decide
  exact all b h

/-- On a byte, the character's operation is the byte's. -/
theorem decodeChar_toNat (b : Byte) : decodeChar b.toNat = decode b := by
  have all : ∀ c : Byte, decodeChar c.toNat = decode c := by decide
  exact all b

/-- The number of a multi-byte character is no operation. -/
theorem decodeChar_of_high {c : Nat} (h : 0x80 ≤ c) : decodeChar c = none := by
  have nat : '+'.toNat = 43 ∧ '-'.toNat = 45 ∧ ','.toNat = 44 ∧ '.'.toNat = 46 ∧ '<'.toNat = 60 ∧ '>'.toNat = 62 ∧
      '['.toNat = 91 ∧ ']'.toNat = 93 := by decide
  unfold decodeChar
  rw [nat.1, nat.2.1, nat.2.2.1, nat.2.2.2.1, nat.2.2.2.2.1, nat.2.2.2.2.2.1, nat.2.2.2.2.2.2.1, nat.2.2.2.2.2.2.2]
  repeat rw [if_neg (by omega)]

/-- A first byte is a whole ASCII character, or a byte of at least 0x80 that begins a character whose number will be at least
0x80: `acc` is large enough, or the range of the next byte makes it so. -/
theorem utf8Lead_eq_some {b : Byte} {part : Utf8Part} (h : utf8Lead b = some part) :
    (part = .whole b.toNat ∧ b.toNat < 0x80) ∨
    (∃ more lo hi acc, part = .begun more lo hi acc ∧ 0x80 ≤ b.toNat ∧ 1 ≤ more ∧ 0x80 ≤ lo ∧ 2 ≤ acc * 64 + (lo - 0x80) ∧
      (more = 1 → 2 ≤ acc)) := by
  simp only [utf8Lead] at h
  repeat' split at h
  all_goals cases h
  · exact .inl ⟨rfl, by assumption⟩
  all_goals exact .inr ⟨_, _, _, _, rfl, by omega, by omega, by omega, by omega, by omega⟩

/-- A further byte is at least as large as its range says, and ends the character or keeps what `utf8Lead_eq_some` says. -/
theorem utf8Next_eq_some {more lo hi acc : Nat} {b : Byte} {part : Utf8Part} (h : utf8Next more lo hi acc b = some part) :
    lo ≤ b.toNat ∧ b.toNat ≤ hi ∧
      ∃ num, num = acc * 64 + (b.toNat - 0x80) ∧
        ((more = 1 ∧ part = .whole num) ∨ (more ≠ 1 ∧ part = .begun (more - 1) 0x80 0xBF num)) := by
  unfold utf8Next at h
  split at h
  next hb =>
    refine ⟨hb.1, hb.2, _, rfl, ?_⟩
    split at h
    next h1 => exact .inl ⟨h1, (Option.some.inj h).symm⟩
    next h1 => exact .inr ⟨h1, (Option.some.inj h).symm⟩
  · cases h

/-- Reading on by one byte: it ends a character, or it leaves one begun. -/
theorem utf8From_cons_eq_some {part : Utf8Part} {b : Byte} {rest : List Byte} {cs : List Nat}
    (h : utf8From part (b :: rest) = some cs) :
    (∃ c cs', utf8Byte part b = some (.whole c) ∧ utf8From (.whole c) rest = some cs' ∧ cs = c :: cs') ∨
    (∃ more lo hi acc, utf8Byte part b = some (.begun more lo hi acc) ∧ utf8From (.begun more lo hi acc) rest = some cs) := by
  rw [utf8From.eq_def] at h
  split at h
  next => simp_all
  next => simp_all
  next e =>
    obtain ⟨rfl, rfl⟩ := List.cons.inj e
    split at h
    next => cases h
    next c hb =>
      obtain ⟨cs', h1, h2⟩ := Option.map_eq_some_iff.1 h
      exact .inl ⟨c, cs', hb, h1, h2.symm⟩
    next more lo hi acc hb => exact .inr ⟨more, lo, hi, acc, hb, h⟩

end Sys2Proof
end

