-- ==== Sys2Proof/Laws/PerInstr.lean ====
section
/-! SUPPORT. Per-instruction laws: both encodings of an operation decode to it (30_encoding.md R73, R80, R83). -/

namespace Sys2Proof.Laws.RoundTrip

/-- The byte of an operation decodes to it, so does its 3-bit code, and it is well formed. -/
def Statement (i : Instr) : Prop := decode (encode i) = some i ∧ decodeCode (encodeCode i) = i ∧ i.wf = true

theorem add : Statement .add := by unfold Statement; decide
theorem subtract : Statement .subtract := by unfold Statement; decide
theorem read : Statement .read := by unfold Statement; decide
theorem write : Statement .write := by unfold Statement; decide
theorem left : Statement .left := by unfold Statement; decide
theorem right : Statement .right := by unfold Statement; decide
theorem loopStart : Statement .loopStart := by unfold Statement; decide
theorem loopEnd : Statement .loopEnd := by unfold Statement; decide

end Sys2Proof.Laws.RoundTrip
end

