-- ==== Sys2Proof/Laws/Run.lean ====
section
/-! SUPPORT. Runs under a host (40_execution_cycle.md R102, R103; 60_exceptions.md R178): what a hosted step can do, and that an
ended run stays ended. -/

namespace Sys2Proof.Machine

variable {h h' : HostAnswers} {s t u : State}

@[simp] theorem respond_silent (s : State) : HostAnswers.silent.respond s = none := by
  simp only [HostAnswers.respond, HostAnswers.silent]; split <;> rfl

theorem respond_of_wait_none (hw : s.wait = none) : h.respond s = none := by simp only [HostAnswers.respond, hw]

/-- All that an answer to an input request takes and does. -/
theorem answerInput_eq_some {a : InAnswer} :
    answerInput a s = some u ↔
      s.wait = some .input ∧ s.ports.inAnswers = [] ∧ u = { s with ports := { s.ports with inAnswers := [a] } } := by
  unfold answerInput
  split <;> simp_all [eq_comm]

/-- All that an answer to an output request takes and does. -/
theorem answerOutput_eq_some {a : OutAnswer} :
    answerOutput a s = some u ↔
      (∃ b, s.wait = some (.output b)) ∧ s.ports.outAnswers = [] ∧
        u = { s with ports := { s.ports with outAnswers := [a] } } := by
  unfold answerOutput
  split <;> simp_all [eq_comm]

/-- All that an answer does: the one answer in the list of the port that waits, and the host's sequence one shorter. -/
theorem respond_eq_some (hr : h.respond s = some (h', u)) :
    (∃ a, s.wait = some .input ∧ s.ports.inAnswers = [] ∧ h.input 0 = some a ∧
      h' = { h with input := fun k => h.input (k + 1) } ∧ u = { s with ports := { s.ports with inAnswers := [a] } }) ∨
    (∃ b a, s.wait = some (.output b) ∧ s.ports.outAnswers = [] ∧ h.output 0 = some a ∧
      h' = { h with output := fun k => h.output (k + 1) } ∧
      u = { s with ports := { s.ports with outAnswers := [a] } }) := by
  unfold HostAnswers.respond at hr
  split at hr
  · cases hr
  next hw =>
    split at hr
    · cases hr
    next a ha =>
      obtain ⟨t, ht, e⟩ := Option.map_eq_some_iff.1 hr
      cases e
      obtain ⟨-, hl, rfl⟩ := answerInput_eq_some.1 ht
      exact .inl ⟨a, hw, hl, ha, rfl, rfl⟩
  next b hw =>
    split at hr
    · cases hr
    next a ha =>
      obtain ⟨t, ht, e⟩ := Option.map_eq_some_iff.1 hr
      cases e
      obtain ⟨-, hl, rfl⟩ := answerOutput_eq_some.1 ht
      exact .inr ⟨b, a, hw, hl, ha, rfl, rfl⟩

/-- A host that has an answer for every request answers one that waits without an answer. -/
theorem respond_of_answering (hi : ∀ k, h.input k ≠ none) (ho : ∀ k, h.output k ≠ none)
    (hw : s.wait = some .input ∧ s.ports.inAnswers = [] ∨ (∃ b, s.wait = some (.output b)) ∧ s.ports.outAnswers = []) :
    h.respond s ≠ none := by
  obtain ⟨a, ha⟩ := Option.ne_none_iff_exists'.1 (hi 0)
  obtain ⟨c, hc⟩ := Option.ne_none_iff_exists'.1 (ho 0)
  rcases hw with ⟨hw, hl⟩ | ⟨⟨b, hw⟩, hl⟩
  · simp [HostAnswers.respond, hw, ha, answerInput_eq_some.2 ⟨hw, hl, rfl⟩]
  · simp [HostAnswers.respond, hw, hc, answerOutput_eq_some.2 ⟨⟨b, hw⟩, hl, rfl⟩]

/-- A step that ends in a wait has no answer yet for its request. -/
theorem step_waits (hi : WaitInv s) (hs : step s = .next t) (hw : t.wait ≠ none) :
    t.wait = some .input ∧ t.ports.inAnswers = [] ∨ (∃ b, t.wait = some (.output b)) ∧ t.ports.outAnswers = [] := by
  obtain ⟨-, ⟨hf, rfl⟩ | ⟨i, hf, he⟩⟩ := step_effect hs
  · obtain ⟨r, hr⟩ := Option.ne_none_iff_exists'.1 hw
    obtain ⟨-, -, ⟨-, h⟩ | ⟨_, -, -, h⟩⟩ := hi r hr <;> rw [hf] at h <;> cases h
  · have plain : s.wait = none ∨ s.mode = .normal ∧ (i = .read ∨ i = .write) := by
      rcases hw' : s.wait with _ | r
      · exact .inl rfl
      · obtain ⟨-, hm, ⟨-, h⟩ | ⟨_, -, -, h⟩⟩ := hi r hw' <;> rw [hf] at h <;> cases h <;> simp [hm]
    cases he
    case readWaits hm hc hi => exact .inl ⟨rfl, hi⟩
    case writeWaits c hm hc ho => exact .inr ⟨⟨c, rfl⟩, ho⟩
    all_goals exact absurd (by simp_all) hw

/-- A hosted step is a step, or a step that waits, is answered, and goes on. -/
theorem hostedStep_next (hs : hostedStep h s = .next (h', t)) :
    (step s = .next t ∧ h.respond t = none ∧ h' = h) ∨
    ∃ w u, step s = .next w ∧ h.respond w = some (h', u) ∧ step u = .next t := by
  unfold hostedStep at hs
  split at hs
  next w hw =>
    split at hs
    next hr => cases hs; exact .inl ⟨hw, hr, rfl⟩
    next h'' u hr =>
      split at hs
      next v hv => cases hs; exact .inr ⟨w, u, hw, hr, hv⟩
      all_goals cases hs
  all_goals cases hs

/-- What every step and every answer keep, a hosted step keeps. -/
theorem hostedStep_keeps {P : State → Prop} (keep : ∀ s t, P s → step s = .next t → P t)
    (ans : ∀ (h h' : HostAnswers) (s u : State), P s → h.respond s = some (h', u) → P u) (hp : P s)
    (hs : hostedStep h s = .next (h', t)) : P t := by
  rcases hostedStep_next hs with ⟨ht, -, -⟩ | ⟨w, u, hw, hr, ht⟩
  · exact keep _ _ hp ht
  · exact keep _ _ (ans _ _ _ _ (keep _ _ hp hw) hr) ht

/-- What every step and every answer keep, a hosted run keeps. -/
theorem hostedRun_keeps {P : State → Prop} (keep : ∀ s t, P s → step s = .next t → P t)
    (ans : ∀ (h h' : HostAnswers) (s u : State), P s → h.respond s = some (h', u) → P u) {n : Nat} (hp : P s)
    (hr : hostedRun n h s = .next t) : P t := by
  induction n generalizing h s with
  | zero => cases hr; exact hp
  | succ n ih =>
    unfold hostedRun at hr
    split at hr
    next h' u hu =>
      have hpu : P u := hostedStep_keeps keep ans hp hu
      split at hr
      · exact ih hpu hr
      · cases hr; exact hpu
    all_goals cases hr

/-- A run that has ended stays as it is, however many more steps are allowed. -/
theorem hostedRun_ended {n : Nat} (hr : hostedRun (n + 1) h s = .next t) (he : stepReply t ≠ some (.cont true)) (k : Nat) :
    hostedRun (n + 1 + k) h s = .next t := by
  induction n generalizing h s with
  | zero =>
    rw [show 0 + 1 + k = k + 1 by omega]
    simp only [hostedRun] at hr ⊢
    split at hr
    next =>
      split at hr <;> cases hr
      · contradiction
      next hc => rw [if_neg hc]
    all_goals cases hr
  | succ n ih =>
    rw [show n + 1 + 1 + k = (n + 1 + k) + 1 by omega]
    unfold hostedRun at hr ⊢
    split at hr
    next h' u hu =>
      split at hr
      next hc => simp only [hc, if_true]; exact ih hr
      next hc => simp only [hc, if_false]; exact hr
    all_goals cases hr

/-- Under the host that never answers, a run is the driver loop over the answers that State holds. -/
theorem hostedRun_silent (n : Nat) (s : State) : hostedRun n .silent s = drive n s := by
  induction n generalizing s with
  | zero => rfl
  | succ n ih =>
    simp only [hostedRun, hostedStep, drive, respond_silent]
    cases step s with
    | next t => simp only [ih]
    | fault r => rfl
    | refused r => rfl

end Sys2Proof.Machine
end

