-- ==== Sys2Proof/Tests/Slice0.lean ====
section
/-! SUPPORT. Tests: decoding from words written out of the spec, the well-formedness checks, one-step vectors of
spec/95_test_vectors.md and of the rules' own examples, and a witness for the hypotheses of every obligation. -/

namespace Sys2Proof.Tests

open Sys2Proof Sys2Proof.Machine

/-- A small engine for tests: a program, an ip, the listed tape cells, the tape length and the head. -/
def engine (prog : Program) (ip : Nat) (cells : Memory) (len head : Nat) : State :=
  { State.reset with prog := prog, ip := ip, tape := { cells := cells, len := len }, head := head }

/-- One field (or a few) of a next state. -/
def view {α : Type} (o : Host.Outcome State Fault Refusal) (f : State → α) : Option α :=
  match o with
  | .next t => some (f t)
  | .fault _ => none
  | .refused _ => none

/-- The name a machine stopped under. -/
def refusal (o : Host.Outcome State Fault Refusal) : Option Refusal :=
  match o with
  | .next _ => none
  | .fault _ => none
  | .refused r => some r

/-! ## Decoding: the bits column of 30_encoding.md R73 -/

theorem test_decode_add : decode 0b00101011#8 = some .add := by decide
theorem test_decode_subtract : decode 0b00101101#8 = some .subtract := by decide
theorem test_decode_read : decode 0b00101100#8 = some .read := by decide
theorem test_decode_write : decode 0b00101110#8 = some .write := by decide
theorem test_decode_left : decode 0b00111100#8 = some .left := by decide
theorem test_decode_right : decode 0b00111110#8 = some .right := by decide
theorem test_decode_loopStart : decode 0b01011011#8 = some .loopStart := by decide
theorem test_decode_loopEnd : decode 0b01011101#8 = some .loopEnd := by decide

/-- R75: every byte but the eight encodes nothing. -/
theorem test_decode_comments :
    ∀ b : Byte, classify b = .comment ↔ b ∉ [0x2B#8, 0x2D#8, 0x2C#8, 0x2E#8, 0x3C#8, 0x3E#8, 0x5B#8, 0x5D#8] := by decide

/-- R80: the code table, in the spec's order. -/
theorem test_codes :
    (List.range 8).map (fun n => decodeCode (BitVec.ofNat 3 n)) =
      [.add, .subtract, .read, .write, .left, .right, .loopStart, .loopEnd] := by decide

/-- R76: comment bytes take no position. -/
theorem test_load_drops_comments : loadSource [0x61#8, 0x2B#8, 0x20#8, 0x5D#8, 0x0A#8] = [.add, .loopEnd] := by decide

/-- RFC 3629's examples: U+00E9 and U+20AC decode; an overlong form, a surrogate and a cut character do not. -/
theorem test_utf8 :
    utf8Chars [0xC3#8, 0xA9#8, 0x2B#8] = some [0xE9, 0x2B] ∧ utf8Chars [0xE2#8, 0x82#8, 0xAC#8] = some [0x20AC] ∧
    utf8Valid [0xC0#8, 0xAB#8] = false ∧ utf8Valid [0xED#8, 0xA0#8, 0x80#8] = false ∧ utf8Valid [0xE2#8, 0x82#8] = false := by
  decide

/-- R82 and 93: what is not valid UTF-8 is refused at the load port. -/
theorem test_load_refuses : view (loadBytes .normative [0xC3#8, 0xA9#8, 0x2B#8]) (fun t => t.prog) = some [.add] ∧
    refusal (loadBytes .normative [0x2B#8, 0xFF#8]) = some .notUtf8 := by decide

theorem test_table_word : decodeTableWord 8 0x3E = some .right ∧ decodeTableWord 8 0x3D = none := by decide

/-! ## Well-formedness: an ill-formed term for each check -/

theorem test_wf_every_instruction :
    [Instr.add, .subtract, .read, .write, .left, .right, .loopStart, .loopEnd].all Instr.wf = true := by decide

theorem test_wf_no_room_for_one_cell :
    Realisation.tapeBoundOk { maxTapeCells := some 0, maxLoopDepth := none, ipWidth := none, headWidth := none } = false := by
  decide

theorem test_wf_head_width_without_bound :
    Realisation.headWidthOk { maxTapeCells := none, maxLoopDepth := none, ipWidth := none, headWidth := some 16 } = false := by
  decide

theorem test_wf_head_width_too_small :
    Realisation.headWidthOk { maxTapeCells := some 5, maxLoopDepth := none, ipWidth := none, headWidth := some 2 } = false := by
  decide

theorem test_wf_ip_width_too_small :
    Program.fits { maxTapeCells := none, maxLoopDepth := none, ipWidth := some 1, headWidth := none } [.add, .add] = false := by
  decide

theorem test_wf_refuses_the_whole :
    Realisation.wf { maxTapeCells := some 0, maxLoopDepth := none, ipWidth := none, headWidth := none } [] = false := by decide

/-! ## Reset and fetch -/

/-- C5, R191: "empty" means one cell holding 0. -/
theorem test_reset_tape : State.reset.tape.toList = [0x00#8] ∧ State.reset.tape.wf := by decide

theorem test_fetch_word : (State.reset.withFetchWord 8 0x2B).fetch = some .add ∧
    view (step (State.reset.withFetchWord 8 0x2B)) (fun t => t.tape.toList) = some [0x01#8] := by decide

/-! ## One step: the vectors of 95_test_vectors.md section 2 -/

theorem test_add_wraps :  -- V-A3
    view (step (engine [.add] 0 [(0, 0xFF#8)] 1 0)) (fun t => (t.tape, t.ip)) = some ({ cells := [], len := 1 }, 1) := by decide

theorem test_add_is_unsigned :  -- V-A2
    view (step (engine [.add] 0 [(0, 0x7F#8)] 1 0)) (fun t => t.tape.toList) = some [0x80#8] := by decide

theorem test_subtract_wraps :  -- V-S2
    view (step (engine [.subtract] 0 [] 1 0)) (fun t => t.tape.toList) = some [0xFF#8] := by decide

theorem test_subtract_is_unsigned :  -- V-S3
    view (step (engine [.subtract] 0 [(0, 0x80#8)] 1 0)) (fun t => t.tape.toList) = some [0x7F#8] := by decide

theorem test_right_appends :  -- V-H1
    view (step (engine [.right] 0 [(0, 7#8)] 1 0)) (fun t => (t.tape.toList, t.head)) = some ([7#8, 0#8], 1) := by decide

theorem test_right_inside :  -- V-H2
    view (step (engine [.right] 0 [(0, 1#8), (1, 2#8), (2, 3#8)] 3 0)) (fun t => (t.tape.toList, t.head)) =
      some ([1#8, 2#8, 3#8], 1) := by decide

theorem test_left_prepends :  -- V-H3
    view (step (engine [.left] 0 [(0, 7#8)] 1 0)) (fun t => (t.tape.toList, t.head)) = some ([0#8, 7#8], 0) := by decide

theorem test_left_inside :  -- V-H4
    view (step (engine [.left] 0 [(0, 1#8), (1, 2#8)] 2 1)) (fun t => (t.tape.toList, t.head)) = some ([1#8, 2#8], 0) := by
  decide

/-- Cell 7, about to read, with the given answers. -/
def reader (answers : List InAnswer) : State :=
  { engine [.read] 0 [(0, 7#8)] 1 0 with ports := { State.reset.ports with inAnswers := answers } }

theorem test_read_zero_is_data :  -- V-IO2
    view (step (reader [.byte 0x00#8])) (fun t => (t.tape.toList, t.ip, t.ports.inStream)) = some ([0#8], 1, [0#8]) := by decide

theorem test_read_exhausted :  -- V-IO3
    view (step (reader [.exhausted])) (fun t => (t.tape.toList, t.ip, t.status)) =
      some ([7#8], 0, .faulted { kind := .inputFailure, sub := .exhausted, pos := 0 }) := by decide

/-- Cell 0xFF, about to write, with the given answers. -/
def writer (answers : List OutAnswer) : State :=
  { engine [.write] 0 [(0, 0xFF#8)] 1 0 with ports := { State.reset.ports with outAnswers := answers } }

theorem test_write_is_raw :  -- V-IO6
    view (step (writer [.ok])) (fun t => (t.ports.outStream, t.ip)) = some ([0xFF#8], 1) := by decide

theorem test_write_error :  -- V-IO8
    view (step (writer [.error])) (fun t => (t.ports.outStream, t.ip, t.status)) =
      some ([], 0, .faulted { kind := .outputFailure, sub := .channelError, pos := 0 }) := by decide

/-- R140's example: ip 3, cell 0, lstack [0]. -/
def opener : State := { engine [.loopStart, .add, .add, .loopStart] 3 [] 1 0 with lstack := [0] }

theorem test_loopStart_starts_a_skip :
    view (step opener) (fun t => (t.lstack, t.mode, t.ip)) = some ([0, 3], .skipping 3, 4) := by decide

theorem test_loopStart_in_a_skip :  -- R141's example: ip 5, Skipping(3), lstack [3]
    view (exec .loopStart { engine [] 5 [] 1 0 with lstack := [3], mode := .skipping 3 }) (fun t => (t.lstack, t.mode, t.ip)) =
      some ([3, 5], .skipping 3, 6) := by decide

theorem test_loopEnd_jumps_to_the_loopStart :  -- R142's example: ip 6, cell 4, lstack [1]
    view (exec .loopEnd { engine [] 6 [(0, 4#8)] 1 0 with lstack := [1] }) (fun t => (t.lstack, t.ip)) = some ([], 1) := by decide

theorem test_loopEnd_of_a_nested_loop_keeps_the_skip :  -- R143's example: Skipping(3), lstack [3, 5]
    view (exec .loopEnd { engine [] 6 [] 1 0 with lstack := [3, 5], mode := .skipping 3 }) (fun t => (t.lstack, t.mode)) =
      some ([3], .skipping 3) := by decide

theorem test_unmatched_loopEnd :  -- V-L6
    view (step (engine [.loopEnd] 0 [] 1 0)) (fun t => (t.status, stepReply t)) =
      some (.faulted { kind := .unmatchedLoopEnd, sub := .none, pos := 0 },
        some (.fault { kind := .unmatchedLoopEnd, sub := .none, pos := 0 })) := by decide

theorem test_memory_forgets_a_zero : Memory.write [(3, 9#8), (5, 1#8)] 3 0#8 = [(5, 1#8)] := by decide

/-! ## Witnesses: states and operands that meet the hypotheses of the obligations, one for each clause -/

/-- The realisation with every bound at its smallest useful value. -/
def tiny : Realisation := { maxTapeCells := some 1, maxLoopDepth := some 1, ipWidth := some 1, headWidth := some 0 }

/-- A Normal-mode state in the middle of a tape, with loop entries. -/
def busy : State :=
  { engine [.loopStart, .add, .loopEnd] 2 [(0, 1#8), (1, 255#8)] 3 1 with
    lstack := [0]
    ports := { inAnswers := [.byte 1#8], outAnswers := [.ok], inStream := [], outStream := [] } }

/-- A skip from position 0. -/
def skipper : State := { engine [.loopStart, .loopEnd] 1 [] 1 0 with lstack := [0], mode := .skipping 0 }

/-- An engine that has faulted at position 0. -/
def broken : State :=
  { engine [.loopEnd] 0 [] 1 0 with status := .faulted { kind := .unmatchedLoopEnd, sub := .none, pos := 0 } }

/-- An engine that waits for input. -/
def waiting : State := { reader [] with wait := some .input }

/-- An engine at the bounds of `tiny`: its one cell under the head and its one stack entry taken. -/
def full : State := { engine [.loopStart, .right] 1 [(0, 1#8)] 1 0 with lstack := [0], realisation := tiny }

theorem reset_inv : EngineInv State.reset := ⟨by decide, by decide, by decide, by decide, by decide, by decide, by decide⟩
theorem busy_inv : EngineInv busy := ⟨by decide, by decide, by decide, by decide, by decide, by decide, by decide⟩
theorem skipper_inv : EngineInv skipper := ⟨by decide, by decide, by decide, by decide, by decide, by decide, by decide⟩
theorem broken_inv : EngineInv broken := ⟨by decide, by decide, by decide, by decide, by decide, by decide, by decide⟩
theorem waiting_inv : EngineInv waiting := ⟨by decide, by decide, by decide, by decide, by decide, by decide, by decide⟩
theorem full_inv : EngineInv full := ⟨by decide, by decide, by decide, by decide, by decide, by decide, by decide⟩
theorem opener_inv : EngineInv opener := ⟨by decide, by decide, by decide, by decide, by decide, by decide, by decide⟩
theorem busy_brackets : BracketInv busy := by decide

theorem witness_OtherBytesOccupyNoSlot :
    0x2A#8 ∉ [0x2B#8, 0x2D#8, 0x2C#8, 0x2E#8, 0x3C#8, 0x3E#8, 0x5B#8, 0x5D#8] ∧
    0x00#8 ∉ [0x2B#8, 0x2D#8, 0x2C#8, 0x2E#8, 0x3C#8, 0x3E#8, 0x5B#8, 0x5D#8] ∧
    0xFF#8 ∉ [0x2B#8, 0x2D#8, 0x2C#8, 0x2E#8, 0x3C#8, 0x3E#8, 0x5B#8, 0x5D#8] := by decide

theorem witness_PositionsCountRecognisedBytes : decode 0x5D#8 = some .loopEnd := by decide

theorem witness_StepRunsTheFetchedOperation :
    (busy.status = .running ∧ busy.prog[busy.ip]? = some .loopEnd) ∧
    (engine [.add] 0 [] 1 0).prog = loadSource ([0x20#8] ++ 0x2B#8 :: [0x0A#8]) ∧
    (engine [.add] 0 [] 1 0).ip = (loadSource [0x20#8]).length ∧ decode 0x2B#8 = some .add := by decide

theorem witness_EndCheckWritesNothing :
    State.reset.status = .running ∧ WaitInv State.reset ∧ State.reset.ip ≥ State.reset.prog.length := by decide

theorem witness_StepAfterCompletionIsHarmless :
    step State.reset = .next State.reset ∧ stepReply State.reset = some (.cont false) := ⟨rfl, by decide⟩

theorem witness_StepAfterFaultIsRefused :
    broken.status = .faulted { kind := .unmatchedLoopEnd, sub := .none, pos := 0 } ∧
    refusal (step broken) = some .stepAfterFault := by decide

theorem witness_AdvanceUnlessJumpedOrFaulted :
    busy.status = .running ∧
    view (exec .loopEnd busy) (fun t => (t.status, t.wait, t.ip)) = some (.running, none, 0) ∧
    view (exec .add busy) (fun t => (t.status, t.wait, t.ip)) = some (.running, none, 3) ∧
    view (exec .read (reader [.error])) (fun t => (decide (t.status = .running), t.ip)) = some (false, 0) := by decide

/-- All three clauses: one before the last operation, a backward jump, and the last operation. -/
theorem witness_ReplyIsWhetherIpIsInside :
    busy.fetch = some .loopEnd ∧ busy.mode = .normal ∧ busy.cell? ≠ some 0x00#8 ∧
    view (step busy) (fun t => (t.status, t.wait, stepReply t)) = some (.running, none, some (.cont true)) ∧
    skipper.ip + 1 = skipper.prog.length ∧
    view (step skipper) (fun t => (t.status, t.wait, stepReply t)) = some (.running, none, some (.cont false)) := by decide

theorem witness_FetchWordIsFetched : busy.ip ≤ busy.prog.length ∧ State.reset.ip ≤ State.reset.prog.length := by decide

theorem witness_InvariantsHoldAtReset : tiny.wf [.add] = true ∧ Realisation.normative.wf [.loopEnd] = true := by decide

theorem witness_AddIncrementsTheCell :
    TapeInv busy ∧ busy.mode = .normal ∧ skipper.mode = .skipping 0 := by decide

theorem witness_SubtractDecrementsTheCell :
    TapeInv State.reset ∧ State.reset.mode = .normal ∧ skipper.mode = .skipping 0 := by decide

/-- In the middle of a full tape, and at its right edge with room for one more cell. -/
theorem witness_RightMovesTheHead :
    (TapeInv busy ∧ busy.mode = .normal ∧ (busy.head + 1 = busy.tape.len → ∀ m ∈ busy.realisation.maxTapeCells, busy.tape.len + 1 ≤ m)) ∧
    (TapeInv (reader []) ∧ (reader []).head + 1 = (reader []).tape.len ∧
      ∀ m ∈ (reader []).realisation.maxTapeCells, (reader []).tape.len + 1 ≤ m) := by decide

theorem witness_LeftMovesTheHead :
    (TapeInv busy ∧ busy.mode = .normal ∧ busy.head ≠ 0) ∧
    (TapeInv (reader []) ∧ (reader []).mode = .normal ∧ (reader []).head = 0 ∧
      ∀ m ∈ (reader []).realisation.maxTapeCells, (reader []).tape.len + 1 ≤ m) := by decide

theorem witness_ReadStoresOneInputByte :
    (TapeInv (reader [.byte 0#8]) ∧ (reader [.byte 0#8]).mode = .normal ∧ (reader [.byte 0#8]).ports.inAnswers = .byte 0#8 :: []) ∧
    (TapeInv (reader [.exhausted]) ∧ (reader [.exhausted]).ports.inAnswers = .exhausted :: []) ∧
    (TapeInv (reader [.error]) ∧ (reader [.error]).ports.inAnswers = .error :: []) ∧ skipper.mode = .skipping 0 := by decide

theorem witness_WriteEmitsTheCell :
    (TapeInv (writer [.ok]) ∧ (writer [.ok]).mode = .normal ∧ (writer [.ok]).ports.outAnswers = .ok :: []) ∧
    (TapeInv (writer [.error]) ∧ (writer [.error]).mode = .normal ∧ (writer [.error]).ports.outAnswers = .error :: []) ∧
    skipper.mode = .skipping 0 := by decide

/-- Both guards, at the last entry that fits for the zero guard. -/
theorem witness_LoopStartPushesAndGuards :
    (TapeInv busy ∧ busy.mode = .normal ∧ ∀ m ∈ busy.realisation.maxLoopDepth, busy.lstack.length + 1 ≤ m) ∧
    (TapeInv (loadProgram tiny [.loopStart]) ∧ (loadProgram tiny [.loopStart]).mode = .normal ∧
      ∀ m ∈ (loadProgram tiny [.loopStart]).realisation.maxLoopDepth, (loadProgram tiny [.loopStart]).lstack.length + 1 ≤ m) ∧
    (skipper.mode = .skipping 0 ∧ ∀ m ∈ skipper.realisation.maxLoopDepth, skipper.lstack.length + 1 ≤ m) := by decide

/-- The empty stack; both guards in Normal mode; the origin and another entry in Skipping mode. -/
theorem witness_LoopEndPopsAndJumps :
    State.reset.lstack = [] ∧
    (TapeInv busy ∧ busy.mode = .normal ∧ busy.lstack = [] ++ [0] ∧ busy.cell? = some 0xFF#8) ∧
    (TapeInv opener ∧ opener.mode = .normal ∧ opener.lstack = [] ++ [0] ∧ opener.cell? = some 0x00#8) ∧
    (skipper.mode = .skipping 0 ∧ skipper.lstack = [] ++ [0]) ∧
    (({ skipper with lstack := [0, 1] } : State).mode = .skipping 0 ∧
      ({ skipper with lstack := [0, 1] } : State).lstack = [0] ++ [1]) := by decide

theorem witness_AccessOffTheTapeStops :
    (engine [] 0 [] 1 1).mode = .normal ∧ (engine [] 0 [] 1 1).tape.len ≤ (engine [] 0 [] 1 1).head ∧
    (engine [] 0 [] 1 1).mayPush = true ∧ ({ engine [] 0 [] 1 1 with lstack := [0] } : State).lstack ≠ [] := by decide

theorem witness_SkippingSuppressesEffects :
    skipper.mode = .skipping 0 ∧ (∀ m ∈ skipper.realisation.maxLoopDepth, skipper.lstack.length + 1 ≤ m) ∧
    skipper.lstack = [] ++ [0] ∧
    ({ skipper with lstack := [] } : State).mode = .skipping 0 ∧ ({ skipper with lstack := [] } : State).lstack = [] := by
  decide

theorem witness_FiniteRealisationFaultsAtItsBounds :
    TapeInv full ∧ full.mode = .normal ∧ full.realisation.maxTapeCells = some 1 ∧ 1 < full.tape.len + 1 ∧
    full.head + 1 = full.tape.len ∧ full.head = 0 ∧
    full.realisation.maxLoopDepth = some 1 ∧ 1 < full.lstack.length + 1 := by decide

theorem witness_WaitingStepResumesOnTheAnswer :
    (TapeInv (reader []) ∧ (reader []).mode = .normal ∧ (reader []).ports.inAnswers = []) ∧
    (TapeInv (writer []) ∧ (writer []).mode = .normal ∧ (writer []).ports.outAnswers = []) := by decide

theorem witness_ProgramStoreIsNeverWritten : view (step busy) (fun t => t.ip) = some 0 := by decide

/-- No growth, growth at the right edge, growth at the left edge. -/
theorem witness_TapeGrowsOnlyAtItsEdges :
    TapeInv busy ∧ view (step busy) (fun t => t.tape.len) = some 3 ∧
    TapeInv (engine [.right] 0 [] 1 0) ∧ view (step (engine [.right] 0 [] 1 0)) (fun t => t.tape.len) = some 2 ∧
    TapeInv (engine [.left] 0 [] 1 0) ∧ view (step (engine [.left] 0 [] 1 0)) (fun t => t.tape.len) = some 2 := by decide

theorem witness_OnlyCellOperationsWriteTheCell :
    TapeInv (engine [.add] 0 [] 1 0) ∧ view (step (engine [.add] 0 [] 1 0)) (fun t => cellAt t 0) = some 1#8 ∧
    TapeInv (engine [.left] 0 [(0, 7#8)] 1 0) ∧
    view (step (engine [.left] 0 [(0, 7#8)] 1 0)) (fun t => (cellAt t 0, cellAt t 1)) = some (0#8, 7#8) := by decide

theorem witness_OneLoopStackForBothModes :
    (busy.status = .running ∧ busy.fetch = some .loopEnd ∧
      view (step busy) (fun t => (t.status, t.lstack)) = some (.running, [])) ∧
    (opener.status = .running ∧ opener.fetch = some .loopStart ∧
      view (step opener) (fun t => (t.status, t.lstack)) = some (.running, [0, 3])) ∧
    ((reader [.byte 1#8]).fetch = some .read ∧
      view (step (reader [.byte 1#8])) (fun t => (t.status, t.lstack)) = some (.running, [])) := by decide

/-- A skip that begins and a skip that ends. -/
theorem witness_ModeChangesOnlyAtBrackets :
    (opener.mode = .normal ∧ view (step opener) (fun t => t.mode) = some (.skipping 3)) ∧
    (skipper.mode = .skipping 0 ∧ view (step skipper) (fun t => t.mode) = some .normal) := by decide

theorem witness_FaultsArePrecise :
    (reader [.error]).status = .running ∧ view (step (reader [.error])) (fun t => t.status) =
      some (.faulted { kind := .inputFailure, sub := .channelError, pos := 0 }) := by decide

/-- Each of the four faults, and a step that does not fault. -/
theorem witness_EngineFaultsExactlyWhereTheSpecSays :
    Unbounded (engine [.loopEnd] 0 [] 1 0) ∧ (engine [.loopEnd] 0 [] 1 0).status = .running ∧
    view (step (engine [.loopEnd] 0 [] 1 0)) (fun t => decide (t.status = .running)) = some false ∧
    view (step (reader [.exhausted])) (fun t => decide (t.status = .running)) = some false ∧
    view (step (reader [.error])) (fun t => decide (t.status = .running)) = some false ∧
    view (step (writer [.error])) (fun t => decide (t.status = .running)) = some false ∧
    view (step busy) (fun t => decide (t.status = .running)) = some true := by decide

/-- An unchanged pair of ports, an input byte, an output byte, an answer without a byte. -/
theorem witness_StreamsMoveOneByteInOrder :
    view (step busy) (fun t => t.ports) = some busy.ports ∧
    view (step (reader [.byte 9#8])) (fun t => t.ports.inStream) = some [9#8] ∧
    view (step (writer [.ok])) (fun t => t.ports.outStream) = some [0xFF#8] ∧
    view (step (reader [.exhausted])) (fun t => t.ports.inStream) = some [] := by decide

/-- A faulted state with the given record. -/
def faultedWith (kind : FaultKind) (sub : SubCause) : State :=
  { State.reset with status := .faulted { kind := kind, sub := sub, pos := 0 } }

theorem witness_DebugReadsFollowTheRegisterMap :
    busy.mode = .normal ∧ skipper.mode = .skipping 0 ∧ busy.status = .running ∧
    (faultedWith .loopStackOverflow .none).status = .faulted { kind := .loopStackOverflow, sub := .none, pos := 0 } ∧
    (faultedWith .inputFailure .exhausted).status = .faulted { kind := .inputFailure, sub := .exhausted, pos := 0 } ∧
    (faultedWith .outputFailure .channelError).status = .faulted { kind := .outputFailure, sub := .channelError, pos := 0 } ∧
    busy.prog = loadSource [0x5B#8, 0x20#8, 0x2B#8, 0x5D#8] := by decide

/-- R161's code table, as the debug port shows it. -/
theorem test_debug_fault_codes :
    (match debugRead .statusKind (faultedWith .tapeCapacityExceeded .none) with | .next v => some v | _ => none) =
      some (.kind 4#3) ∧
    (match debugRead .statusSub (faultedWith .inputFailure .channelError) with | .next v => some v | _ => none) =
      some (.sub 2#2) := by decide

/-- R76, R177: at ip 2 of `[ +]`, the text that remains is `]`. -/
theorem test_remaining_text : remainingText busy = [0x5D#8] := by decide

theorem witness_StepKeepsTheEngineInvariant : EngineInv busy ∧ view (step busy) (fun t => t.ip) = some 0 :=
  ⟨busy_inv, by decide⟩

theorem witness_StepKeepsTheBracketInvariant : BracketInv busy ∧ view (step busy) (fun t => t.ip) = some 0 := by decide

theorem witness_RunningEngineNeverStops : EngineInv busy ∧ busy.status = .running := ⟨busy_inv, by decide⟩

/-- A skip at the bound of its realisation, about to overflow; and the same engine after that fault. -/
def skipperFull : State :=
  { engine [.loopStart, .loopStart] 1 [] 1 0 with lstack := [0], mode := .skipping 0, realisation := tiny }

theorem witness_SkippingNeverFindsTheStackEmpty :
    (EngineInv skipper ∧ skipper.mode = .skipping 0 ∧ view (step skipper) (fun t => t.ip) = some 2) ∧
    (EngineInv skipperFull ∧ skipperFull.mode = .skipping 0 ∧ view (step skipperFull) (fun t => t.status) =
      some (.faulted { kind := .loopStackOverflow, sub := .none, pos := 1 })) ∧
    (EngineInv (skipperFull.raise .loopStackOverflow .none) ∧
      (skipperFull.raise .loopStackOverflow .none).mode = .skipping 0) :=
  ⟨⟨skipper_inv, by decide⟩,
    ⟨⟨by decide, by decide, by decide, by decide, by decide, by decide, by decide⟩, by decide⟩,
    ⟨⟨by decide, by decide, by decide, by decide, by decide, by decide, by decide⟩, by decide⟩⟩

/-- The bound is reached, and a realisation with exactly that much room. -/
theorem witness_LoopDepthIsBoundedByTheProgram :
    EngineInv full ∧ full.lstack.length = loopStartCount full.prog ∧
    (∀ m ∈ full.realisation.maxLoopDepth, loopStartCount full.prog ≤ m) ∧ full.status = .running ∧
    view (step full) (fun t => t.status) = some (.faulted { kind := .tapeCapacityExceeded, sub := .none, pos := 1 }) :=
  ⟨full_inv, by decide⟩

theorem witness_PointersFitTheirWidths :
    EngineInv (loadProgram tiny [.add]) ∧ (loadProgram tiny [.add]).realisation.wf (loadProgram tiny [.add]).prog = true :=
  ⟨⟨by decide, by decide, by decide, by decide, by decide, by decide, by decide⟩, by decide⟩

theorem witness_BackwardJumpGoesToTheMatchingLoopStart :
    Balanced [.add] ∧ busy.prog = [] ++ .loopStart :: ([.add] ++ .loopEnd :: []) ∧
    busy.ip = ([] : Program).length + 1 + ([.add] : Program).length ∧ busy.status = .running ∧ busy.mode = .normal ∧
    BracketInv busy ∧ busy.cell? = some 0xFF#8 ∧ 0xFF#8 ≠ 0x00#8 :=
  ⟨.plain (by decide) (by decide) .nil, by decide⟩

/-- A loop whose body holds a loop: `[[+]-]` over a zero cell. -/
theorem witness_SkipEndsAtTheMatchingLoopEnd :
    Balanced [.loopStart, .add, .loopEnd, .subtract] ∧
    (engine [.loopStart, .loopStart, .add, .loopEnd, .subtract, .loopEnd] 0 [] 1 0).prog =
      [] ++ .loopStart :: ([.loopStart, .add, .loopEnd, .subtract] ++ .loopEnd :: []) ∧
    (engine [.loopStart, .loopStart, .add, .loopEnd, .subtract, .loopEnd] 0 [] 1 0).status = .running ∧
    (engine [.loopStart, .loopStart, .add, .loopEnd, .subtract, .loopEnd] 0 [] 1 0).mode = .normal ∧
    (engine [.loopStart, .loopStart, .add, .loopEnd, .subtract, .loopEnd] 0 [] 1 0).cell? = some 0x00#8 ∧
    (engine [.loopStart, .loopStart, .add, .loopEnd, .subtract, .loopEnd] 0 [] 1 0).realisation.maxLoopDepth = none :=
  ⟨.loop (body := [.add]) (rest := [.subtract]) (.plain (by decide) (by decide) .nil) (.plain (by decide) (by decide) .nil),
    by decide⟩

theorem witness_AddsAndSubtractsSumModulo256 :
    (∀ i ∈ [Instr.add, .subtract, .add], i = .add ∨ i = .subtract) ∧ TapeInv busy ∧ busy.mode = .normal := by decide

theorem witness_TapeGrowthIsTransparent :
    TapeInv busy ∧ busy.mode = .normal ∧ busy.realisation.maxTapeCells = none := by decide

theorem witness_MovesAndWritesActAsOnAnInfiniteTape :
    (∀ i ∈ [Instr.left, .add, .right], i = .add ∨ i = .subtract ∨ i = .left ∨ i = .right) ∧
    TapeInv busy ∧ busy.mode = .normal ∧ busy.realisation.maxTapeCells = none := by decide

/-- One state for each ending: a reply, a wait, no transition. -/
theorem witness_StepRefinesThePseudocode :
    (EngineInv busy ∧ Unbounded busy) ∧ (EngineInv waiting ∧ Unbounded waiting) ∧ (EngineInv broken ∧ Unbounded broken) :=
  ⟨⟨busy_inv, by decide⟩, ⟨waiting_inv, by decide⟩, ⟨broken_inv, by decide⟩⟩

theorem sameAsFunction_over (s : State) : SameAsFunction s (s.over (fun q => cellAt s q, 0)) :=
  ⟨rfl, fun d => by simp [State.over]⟩

theorem witness_FunctionTapeSimulatesTheMachine :
    EngineInv busy ∧ Unbounded busy ∧ SameAsFunction busy (busy.over (fun q => cellAt busy q, 0)) :=
  ⟨busy_inv, by decide, sameAsFunction_over busy⟩

/-- The reset tape, and the same with one zero cell more on each side. -/
theorem witness_MaterializedLengthIsUnobservable :
    EngineInv (engine [.add] 0 [] 1 0) ∧ EngineInv (engine [.add] 0 [] 3 1) ∧ Unbounded (engine [.add] 0 [] 1 0) ∧
    SameButGrowth (engine [.add] 0 [] 1 0) (engine [.add] 0 [] 3 1) ∧
    view (drive 1 (engine [.add] 0 [] 1 0)) (fun t => stepReply t) = some (some (.cont false)) := by
  refine ⟨⟨by decide, by decide, by decide, by decide, by decide, by decide, by decide⟩,
    ⟨by decide, by decide, by decide, by decide, by decide, by decide, by decide⟩, by decide, ⟨rfl, fun d => ?_⟩, by decide⟩
  rw [cellAt_eq (by decide), cellAt_eq (by decide)]
  simp [engine, Memory.read, Memory.unlisted]

/-- The host whose every input answer is `InByte(9)` and every output answer `OutOk`. -/
def willing : HostAnswers := { input := fun _ => some (.byte 9#8), output := fun _ => some .ok }

theorem witness_RunHasExactlyOneOutcome :
    EngineInv busy ∧ busy.status = .running ∧ (∀ k, willing.input k ≠ none) ∧ (∀ k, willing.output k ≠ none) :=
  ⟨busy_inv, by decide, by simp [willing], by simp [willing]⟩

theorem witness_OpenLoopsAtTheEndComplete :
    EngineInv opener ∧ Unbounded opener ∧ opener.status = .running ∧ opener.fetch = some .loopStart ∧
    opener.ip + 1 = opener.prog.length := ⟨opener_inv, by decide⟩

theorem witness_ResetRegistersAsDecided : utf8Valid [0x2B#8] = true ∧ utf8Valid [0x80#8] = false := by decide

theorem witness_CharacterWiseLoadingAgrees : utf8Valid [0xC2#8, 0x80#8] = true ∧ utf8Valid [0xF4#8, 0x90#8] = false := by decide

/-- A waiting request without an answer, one with its answer, and no request, for each port. -/
theorem witness_OnlyAnIssuedRequestIsAnswered :
    (waiting.wait = some .input ∧ waiting.ports.inAnswers = []) ∧
    ({ reader [.error] with wait := some .input } : State).ports.inAnswers ≠ [] ∧ (reader []).wait ≠ some .input ∧
    (({ writer [] with wait := some (.output 0xFF#8) } : State).wait = some (.output 0xFF#8) ∧ (writer []).ports.outAnswers = []) ∧
    (writer [.ok]).ports.outAnswers ≠ [] := by decide

/-- R181: a second answer to one request is turned away. -/
theorem test_one_answer_only : ((answerInput .error waiting).bind (answerInput .error)).isNone = true := by decide

/-! ## Each of the four outcomes of a run (40_execution_cycle.md R103) happens -/

theorem outcome_completes : Completes .silent State.reset := ⟨0, State.reset, rfl, by decide⟩

theorem outcome_faults :
    FaultsWith .silent (engine [.loopEnd] 0 [] 1 0) { kind := .unmatchedLoopEnd, sub := .none, pos := 0 } :=
  ⟨0, broken, rfl, by decide⟩

theorem outcome_blocks : Blocks .silent (reader []) := ⟨0, waiting, rfl, by decide⟩

/-- R178: the host's answer ends the wait inside the step. -/
theorem test_host_answers_a_read : ∃ t, hostedRun 1 willing (reader []) = .next t ∧ t.tape.toList = [9#8] ∧ t.wait = none :=
  ⟨_, rfl, by decide⟩

/-- Inside the loop of `+[.]` with some bytes written: about to run the operation at `k`, one of the three of the loop. -/
def printer (k : Fin 3) (out : List Byte) : State :=
  { engine [.add, .loopStart, .write, .loopEnd] (k + 1) [(0, 1#8)] 1 0 with
    lstack := if k = 0 then [] else [1]
    ports := { State.reset.ports with outStream := out } }

/-- Under the willing host every step of the loop replies Continue(true), whatever has been written. -/
theorem printer_runs (n : Nat) (k : Fin 3) (out : List Byte) :
    ∃ k' out', hostedRun (n + 1) willing (printer k out) = .next (printer k' out') ∧
      stepReply (printer k' out') = some (.cont true) := by
  have one : ∀ (k : Fin 3) (out : List Byte), ∃ k' out', hostedStep willing (printer k out) = .next (willing, printer k' out') := by
    intro k out
    match k with
    | 0 => exact ⟨1, out, rfl⟩
    | 1 => exact ⟨2, out ++ [1#8], rfl⟩
    | 2 => exact ⟨0, out, rfl⟩
  have goes_on : ∀ (k : Fin 3) (out : List Byte), stepReply (printer k out) = some (.cont true) := by
    intro k out
    match k with
    | 0 => rfl
    | 1 => rfl
    | 2 => rfl
  induction n generalizing k out with
  | zero =>
    obtain ⟨k', out', h⟩ := one k out
    exact ⟨k', out', by simp only [hostedRun, h, goes_on, if_true], goes_on k' out'⟩
  | succ n ih =>
    obtain ⟨k', out', h⟩ := one k out
    have next : hostedRun (n + 2) willing (printer k out) = hostedRun (n + 1) willing (printer k' out') := by
      rw [hostedRun, h]; simp only [goes_on, if_true]
    rw [next]; exact ih k' out'

/-- R103 (c), with I/O for ever: `+[.]` whose every request is answered diverges (after the Add) and is not blocked. -/
theorem outcome_diverges : Diverges willing (printer 0 []) := fun n =>
  have ⟨k, out, h, r⟩ := printer_runs n 0 []
  ⟨printer k out, h, r⟩

end Sys2Proof.Tests
end

section
/-! Proofs of the state family (10_state.md): which steps change the tape's length, and which change the mode. Both are read off
the endings of an operation (`Effect`). -/

namespace Sys2Proof.Machine

variable {s t : State} {i : Instr}

/-! ## The tape's length (R24) -/

/-- Only a Normal-mode move can change the tape's length: every other ending keeps the tape or writes one cell of it. -/
theorem Effect.len_eq_or_moved (he : Effect s i t) :
    t.tape.len = s.tape.len ∨
    (i = .right ∧ s.mode = .normal ∧ t = (s.shiftRight 1).advance) ∨
    (i = .left ∧ s.mode = .normal ∧ t = (s.shiftLeft 1).advance) := by
  cases he
  case movedRight hm hg => exact .inr (.inl ⟨rfl, hm, rfl⟩)
  case movedLeft hm hg => exact .inr (.inr ⟨rfl, hm, rfl⟩)
  all_goals exact .inl rfl

/-- Inside the tape Right adds no cell (42_head_ops.md R120). -/
theorem shiftRight_one_len_inside (hlt : s.head < s.tape.len) (hin : s.head + 1 ≠ s.tape.len) :
    (s.shiftRight 1).tape.len = s.tape.len := by
  simp [growRight_one hlt, hin]

/-- At the right edge Right appends one zero cell (42_head_ops.md R120). -/
theorem shiftRight_one_toList_edge (h : TapeInv s) (hedge : s.head + 1 = s.tape.len) :
    (s.shiftRight 1).tape.toList = s.tape.toList ++ [0x00#8] := by
  rw [State.shiftRight_tape, growRight_one h.2, if_pos hedge, Tape.toList_append h.1, List.replicate_one]

/-- Away from index 0 Left adds no cell (42_head_ops.md R121). -/
theorem shiftLeft_one_len_inside (hin : s.head ≠ 0) : (s.shiftLeft 1).tape.len = s.tape.len := by
  simp [growLeft_one, hin]

/-- At index 0 Left prepends one zero cell (42_head_ops.md R121). -/
theorem shiftLeft_one_toList_edge (hedge : s.head = 0) :
    (s.shiftLeft 1).tape.toList = 0x00#8 :: s.tape.toList := by
  rw [State.shiftLeft_tape, growLeft_one, if_pos hedge, Tape.toList_prepend, List.replicate_one, List.singleton_append]

/-- At index 0 Left stays at index 0, on the new cell (42_head_ops.md R121). -/
theorem shiftLeft_one_head_edge (hedge : s.head = 0) : (s.shiftLeft 1).head = 0 := by
  simp [growLeft_one, hedge]

/-- Settles O29: only a Normal-mode move can change the length, and each move does so only at its edge. -/
theorem tapeGrowsOnlyAtItsEdges : Obligations.TapeGrowsOnlyAtItsEdges := by
  intro s t h hs
  obtain ⟨-, ⟨-, rfl⟩ | ⟨i, hf, he⟩⟩ := step_effect hs
  · exact .inl rfl
  · obtain hlen | ⟨rfl, hm, rfl⟩ | ⟨rfl, hm, rfl⟩ := he.len_eq_or_moved
    · exact .inl hlen
    · by_cases hedge : s.head + 1 = s.tape.len
      · exact .inr (.inl ⟨hf, hm, hedge, rfl, shiftRight_one_toList_edge h hedge⟩)
      · exact .inl (shiftRight_one_len_inside h.2 hedge)
    · by_cases hedge : s.head = 0
      · exact .inr (.inr ⟨hf, hm, hedge, shiftLeft_one_head_edge hedge, shiftLeft_one_toList_edge hedge⟩)
      · exact .inl (shiftLeft_one_len_inside hedge)

/-! ## The mode (R31) -/

/-- Only two endings write the mode: the start of a skip and its end. -/
theorem Effect.mode_eq_or_bracket (he : Effect s i t) :
    t.mode = s.mode ∨
    (i = .loopStart ∧ s.mode = .normal ∧ s.cell? = some 0x00#8 ∧ t.mode = .skipping s.ip) ∨
    (i = .loopEnd ∧ ∃ o, s.mode = .skipping o ∧ s.lstack.getLast? = some o ∧ t.mode = .normal) := by
  cases he
  case skipBegan hp hm hc => exact .inr (.inl ⟨rfl, hm, hc, rfl⟩)
  case skipEnded st o hm hl => exact .inr (.inr ⟨rfl, o, hm, by rw [hl, List.getLast?_concat], rfl⟩)
  all_goals exact .inl rfl

/-- Settles O32: the end check keeps the mode, and of an operation's endings only the two bracket ones write it. -/
theorem modeChangesOnlyAtBrackets : Obligations.ModeChangesOnlyAtBrackets := by
  intro s t hs hne
  obtain ⟨-, ⟨-, rfl⟩ | ⟨i, hf, he⟩⟩ := step_effect hs
  · exact absurd rfl hne
  · obtain hmode | ⟨rfl, hm, hc, ht⟩ | ⟨rfl, o, hm, hl, ht⟩ := he.mode_eq_or_bracket
    · exact absurd hmode hne
    · exact .inl ⟨hm, hf, hc, ht⟩
    · exact .inr ⟨o, hm, hf, hl, ht⟩

end Sys2Proof.Machine
end

section
/-! Proofs of the memory family (20_memory.md): the program store is written by loading alone. -/

namespace Sys2Proof.Machine

variable {s t : State} {i : Instr}

/-- Every ending of an operation is built from writes to other fields than `prog`: the tape and head, ip, the loop stack, the
mode, the status, the wait and the ports (20_memory.md R66). -/
theorem Effect.prog_eq (he : Effect s i t) : t.prog = s.prog := by
  cases he <;> rfl

/-- Settles O28: the end check writes nothing, and no ending of the fetched operation writes the program store. -/
theorem programStoreIsNeverWritten : Obligations.ProgramStoreIsNeverWritten := by
  intro s t hs
  obtain ⟨-, ⟨-, rfl⟩ | ⟨i, -, he⟩⟩ := step_effect hs
  · rfl
  · exact he.prog_eq

end Sys2Proof.Machine
end

section
/-! Proofs of the encoding family (30_encoding.md): the bytes that encode nothing. -/

namespace Sys2Proof

/-- Every operation is written as one of the eight bytes of 30_encoding.md R73. -/
theorem encode_mem_eightBytes (i : Instr) :
    encode i ∈ [0x2B#8, 0x2D#8, 0x2C#8, 0x2E#8, 0x3C#8, 0x3E#8, 0x5B#8, 0x5D#8] := by
  cases i <;> decide

/-- A byte that decoded would be the encoding of its operation, hence one of the eight. -/
theorem decode_eq_none_of_not_mem_eightBytes {b : Byte}
    (hb : b ∉ [0x2B#8, 0x2D#8, 0x2C#8, 0x2E#8, 0x3C#8, 0x3E#8, 0x5B#8, 0x5D#8]) : decode b = none :=
  Option.eq_none_iff_forall_ne_some.2 fun i h => hb (encode_of_decode h ▸ encode_mem_eightBytes i)

/-- Loading splits at the byte, and the byte adds nothing to the part it begins (30_encoding.md R75, R81). -/
theorem loadSource_append_cons_of_none {b : Byte} (h : decode b = none) (before after : List Byte) :
    loadSource (before ++ b :: after) = loadSource (before ++ after) := by
  rw [loadSource_append, loadSource_cons_of_none h, ← loadSource_append]

/-- Settles O2: a byte other than the eight decodes to none, and such a byte drops out of a load wherever it stands. -/
theorem otherBytesOccupyNoSlot : Obligations.OtherBytesOccupyNoSlot := by
  intro b hb
  have hnone : decode b = none := decode_eq_none_of_not_mem_eightBytes hb
  exact ⟨hnone, loadSource_append_cons_of_none hnone⟩

end Sys2Proof
end

section
/-! Proofs of the execution-cycle family (40_execution_cycle.md): the end check, where ip goes, and the reply on it. -/

namespace Sys2Proof.Machine

variable {s t : State} {i : Instr}

/-! ## The end check (R91) -/

theorem step_of_fetch_none (h : s.status = .running) (hf : s.fetch = none) : step s = .next s := by
  simp only [step, h, hf]

/-- The engine waits only in a Read or Write, so past the end of the program there is nothing to wait in. -/
theorem wait_eq_none_of_fetch_none (h : WaitInv s) (hf : s.fetch = none) : s.wait = none := by
  refine Option.eq_none_iff_forall_ne_some.2 fun r hr => ?_
  obtain ⟨-, -, ⟨-, hread⟩ | ⟨-, -, -, hwrite⟩⟩ := h r hr
  · rw [hf] at hread; cases hread
  · rw [hf] at hwrite; cases hwrite

/-- The reply of a step that neither faulted nor waits (R98). -/
theorem stepReply_of_running (h : t.status = .running) (hw : t.wait = none) :
    stepReply t = some (.cont (decide (t.ip < t.prog.length))) := by
  simp only [stepReply, h, hw]

/-- Settles O7: past the end nothing is fetched, so the state stays and, not waiting, answers that ip is not below N. -/
theorem endCheckWritesNothing : Obligations.EndCheckWritesNothing := by
  intro s hrun hwait hend
  have hf : s.fetch = none := fetch_eq_none.2 hend
  refine ⟨step_of_fetch_none hrun hf, ?_⟩
  rw [stepReply_of_running hrun (wait_eq_none_of_fetch_none hwait hf), decide_eq_false (Nat.not_lt.2 hend)]

/-! ## Where ip goes (R97) -/

/-- The one body that jumps: the Normal-mode LoopEnd with a nonzero guard (44_loop_ops.md R142). -/
def JumpsBack (i : Instr) (s : State) : Prop :=
  i = .loopEnd ∧ s.mode = .normal ∧ s.cell? ≠ some 0x00#8

theorem not_jumpsBack_of_ne (h : i ≠ .loopEnd) : ¬ JumpsBack i s := fun hj => h hj.1

theorem not_jumpsBack_of_skipping {o : Nat} (h : s.mode = .skipping o) : ¬ JumpsBack i s := by
  rintro ⟨-, hm, -⟩
  rw [h] at hm; cases hm

theorem not_jumpsBack_of_zero (h : s.cell? = some 0x00#8) : ¬ JumpsBack i s := fun ⟨_, _, hc⟩ => hc h

/-- Every ending jumps, advances, faults or waits, and only the first two move ip (R97; 60_exceptions.md R165, R178). -/
theorem Effect.ip_cases (he : Effect s i t) :
    (JumpsBack i s ∧ s.lstack.getLast? = some t.ip ∧ t.status = s.status) ∨
    (¬ JumpsBack i s ∧ t.ip = s.ip + 1 ∧ t.status = s.status) ∨
    (t.status ≠ .running ∧ t.ip = s.ip) ∨
    (t.wait ≠ none ∧ t.ip = s.ip) := by
  cases he
  case jumpedBack st p c hm hl hc h0 =>
    exact .inl ⟨⟨rfl, hm, by simpa [hc] using h0⟩, by rw [hl, List.getLast?_concat], rfl⟩
  case noRoomRight | noRoomLeft | readExhausted | readError | writeError | noRoomPush | unmatched =>
    exact .inr (.inr (.inl ⟨nofun, rfl⟩))
  case readWaits | writeWaits => exact .inr (.inr (.inr ⟨nofun, rfl⟩))
  case skipped o hm hs he => exact .inr (.inl ⟨not_jumpsBack_of_ne he, rfl, rfl⟩)
  case skipEnded hm hl => exact .inr (.inl ⟨not_jumpsBack_of_skipping hm, rfl, rfl⟩)
  case skipWentOn hm hl hp => exact .inr (.inl ⟨not_jumpsBack_of_skipping hm, rfl, rfl⟩)
  case exited hm hl hc => exact .inr (.inl ⟨not_jumpsBack_of_zero hc, rfl, rfl⟩)
  all_goals exact .inr (.inl ⟨not_jumpsBack_of_ne nofun, rfl, rfl⟩)

/-- An operation that neither faulted nor waits left ip at the popped entry or one further on. -/
theorem Effect.ip_of_ended (he : Effect s i t) (ht : t.status = .running) (hw : t.wait = none) :
    (JumpsBack i s ∧ s.lstack.getLast? = some t.ip) ∨ (¬ JumpsBack i s ∧ t.ip = s.ip + 1) := by
  obtain ⟨hj, hip, -⟩ | ⟨hj, hip, -⟩ | ⟨hfault, -⟩ | ⟨hwaits, -⟩ := he.ip_cases
  · exact .inl ⟨hj, hip⟩
  · exact .inr ⟨hj, hip⟩
  · exact absurd ht hfault
  · exact absurd hw hwaits

/-- From a Running state, an operation whose body faulted left ip alone. -/
theorem Effect.ip_of_faulted (he : Effect s i t) (hs : s.status = .running) (ht : t.status ≠ .running) :
    t.ip = s.ip := by
  obtain ⟨-, -, hst⟩ | ⟨-, -, hst⟩ | ⟨-, hip⟩ | ⟨-, hip⟩ := he.ip_cases
  · exact absurd (hst.trans hs) ht
  · exact absurd (hst.trans hs) ht
  · exact hip
  · exact hip

/-- Settles O10: of an operation's endings only a jump and an advance move ip, and neither of them faults. -/
theorem advanceUnlessJumpedOrFaulted : Obligations.AdvanceUnlessJumpedOrFaulted := by
  intro s t i hrun hexec
  have he : Effect s i t := exec_effect hexec
  refine ⟨fun ht hw => ?_, he.ip_of_faulted hrun⟩
  obtain ⟨⟨hi, hm, hc⟩, hip⟩ | hadv := he.ip_of_ended ht hw
  · exact .inl ⟨hi, hm, hc, hip⟩
  · exact .inr hadv

/-! ## The reply (R98) -/

/-- A popped entry is the position of an earlier operation, so a jump to it stays inside the program (10_state.md R39). -/
theorem EngineInv.getLast?_lt_length {p : Nat} (h : EngineInv s) (hp : s.lstack.getLast? = some p) :
    p < s.prog.length :=
  Nat.lt_of_lt_of_le (h.stack.2 p (List.mem_of_getLast? hp)).1 h.pointer

/-- Settles O11: the reply looks at the updated ip against an unchanged N; a jump goes to an entry below N, and an advance
from the last operation goes to N. -/
theorem replyIsWhetherIpIsInside : Obligations.ReplyIsWhetherIpIsInside := by
  intro s t i hinv hf hstep ht hw
  obtain ⟨hrun, -⟩ := step_next hstep
  have he : Effect s i t := exec_effect (step_of_fetch hrun hf ▸ hstep)
  have hreply : stepReply t = some (.cont (decide (t.ip < s.prog.length))) := by
    rw [stepReply_of_running ht hw, he.prog_eq]
  refine ⟨hreply, fun hi hm hc => ?_, fun hno hlast => ?_⟩
  · obtain ⟨-, hip⟩ | ⟨hno, -⟩ := he.ip_of_ended ht hw
    · rw [hreply, decide_eq_true (hinv.getLast?_lt_length hip)]
    · exact absurd ⟨hi, hm, hc⟩ hno
  · obtain ⟨hj, -⟩ | ⟨-, hip⟩ := he.ip_of_ended ht hw
    · exact absurd hj hno
    · rw [hreply, hip, hlast, decide_eq_false (Nat.lt_irrefl _)]

end Sys2Proof.Machine
end

section
/-! Proofs of the cell family (41_cell_ops.md): Add and Subtract write one cell, move ip and leave everything else alone, and
any number of them adds up. -/

namespace Sys2Proof.Machine

variable {s t u : State} {i : Instr} {b v w : Byte} {m n : Nat}

/-! ## One cell written, ip moved -/

/-- `CellSet s v n t`: `t` is `s` with the cell under the head at `v` and the ip `n` further on. -/
structure CellSet (s : State) (v : Byte) (n : Nat) (t : State) : Prop where
  toList : t.tape.toList = s.tape.toList.set s.head v
  frame : t = { s with tape := t.tape, ip := s.ip + n }

/-- The spec's `Cell()` is the element of the sequence at the head (00_scope.md R13). -/
theorem getElem?_toList_head (s : State) : s.tape.toList[s.head]? = s.cell? := Tape.getElem?_toList s.tape s.head

/-- To change nothing is to leave the cell at its value. -/
theorem CellSet.refl (hc : s.cell? = some b) : CellSet s b 0 s where
  toList := by
    obtain ⟨hlt, hb⟩ := List.getElem?_eq_some_iff.1 ((getElem?_toList_head s).trans hc)
    rw [← hb, List.set_getElem_self]
  frame := rfl

/-- Of two writes to the cell the later one stays, and the moves of ip add up. -/
theorem CellSet.trans (h : CellSet s v m t) (h' : CellSet t w n u) : CellSet s w (m + n) u where
  toList := by rw [h'.toList, h.toList, h.frame, List.set_set]
  frame := by rw [h'.frame, h.frame, Nat.add_assoc]

/-- `SetCell(v)` and the advance of R97, which end every Normal-mode Add and Subtract. -/
theorem CellSet.setCell_advance (h : TapeInv s) (v : Byte) : CellSet s v 1 (s.setCell v).advance where
  toList := Tape.toList_write h.1 s.head v
  frame := rfl

/-- Every other cell reads as before. -/
theorem CellSet.read?_of_ne (h : CellSet s v n t) {a : Nat} (ha : a ≠ s.head) : t.tape.read? a = s.tape.read? a := by
  rw [← Tape.getElem?_toList, h.toList, List.getElem?_set_ne ha.symm, Tape.getElem?_toList]

/-- The cell under the head reads as what was written. -/
theorem cell?_setCell (h : TapeInv s) (v : Byte) : (s.setCell v).cell? = some v := by
  rw [State.cell?, State.setCell_tape, State.setCell_head, Tape.read?_write h.1, if_pos h.2, if_pos rfl]

/-- What an operation that puts `f` of the cell into the cell and advances does on a legal tape: its effect and its frame. -/
theorem exec_cell_effect {f : Byte → Byte} (h : TapeInv s)
    (hexec : ∀ b, s.cell? = some b → exec i s = .next (s.setCell (f b)).advance) :
    ∃ b t, s.tape.toList[s.head]? = some b ∧ exec i s = .next t ∧
      t.tape.toList = s.tape.toList.set s.head (f b) ∧
      (∀ a, a ≠ s.head → t.tape.read? a = s.tape.read? a) ∧
      t = { s with tape := t.tape, ip := s.ip + 1 } := by
  have hc := cell?_of_tapeInv h
  have hset := CellSet.setCell_advance h (f (s.tape.cells.read s.head))
  exact ⟨_, _, (getElem?_toList_head s).trans hc, hexec _ hc, hset.toList, fun _ => hset.read?_of_ne, hset.frame⟩

/-! ## Add and Subtract in each mode (R110, R111) -/

theorem exec_add_normal (hm : s.mode = .normal) (hc : s.cell? = some b) :
    exec .add s = .next (s.setCell (addDelta 1#8 b)).advance :=
  (unlessSkipping_normal hm _).trans (withCell_of_cell hc _)

theorem exec_subtract_normal (hm : s.mode = .normal) (hc : s.cell? = some b) :
    exec .subtract s = .next (s.setCell (subtractDelta 1#8 b)).advance :=
  (unlessSkipping_normal hm _).trans (withCell_of_cell hc _)

theorem exec_add_skipping {o : Nat} (hm : s.mode = .skipping o) : exec .add s = .next s.advance :=
  unlessSkipping_skipping hm _

theorem exec_subtract_skipping {o : Nat} (hm : s.mode = .skipping o) : exec .subtract s = .next s.advance :=
  unlessSkipping_skipping hm _

/-- Settles O16: in Normal mode the cell goes one up modulo 256 and ip advances; in Skipping mode ip alone advances. -/
theorem addIncrementsTheCell : Obligations.AddIncrementsTheCell :=
  ⟨rfl, rfl, fun _ h hm => exec_cell_effect h fun b hc => by rw [exec_add_normal hm hc, addDelta_one],
    fun _ _ hm => exec_add_skipping hm⟩

/-- Settles O17: in Normal mode the cell goes one down modulo 256 and ip advances; in Skipping mode ip alone advances. -/
theorem subtractDecrementsTheCell : Obligations.SubtractDecrementsTheCell :=
  ⟨rfl, rfl, fun _ h hm => exec_cell_effect h fun b hc => by rw [exec_subtract_normal hm hc, subtractDelta_one],
    fun _ _ hm => exec_subtract_skipping hm⟩

/-! ## Any Adds and Subtracts (R112) -/

/-- What an operation adds to the cell under the head, as a whole number: the fixed delta of R110 and R111. -/
def cellDelta : Instr → Int
  | .add => 1
  | .subtract => -1
  | .read | .write | .left | .right | .loopStart | .loopEnd => 0

/-- The deltas of a list add up to its Adds less its Subtracts, whatever their order. -/
theorem sum_map_cellDelta (ops : List Instr) :
    (ops.map cellDelta).sum = (ops.count .add : Int) - ops.count .subtract := by
  induction ops with
  | nil => rfl
  | cons i ops ih =>
    rw [List.map_cons, List.sum_cons, ih]
    cases i <;> simp [cellDelta] <;> omega

/-- Add and Subtract as one operation: the delta, modulo 256, joins the cell. -/
theorem exec_cellDelta (hi : i = .add ∨ i = .subtract) (hm : s.mode = .normal) (hc : s.cell? = some b) :
    exec i s = .next (s.setCell (b + BitVec.ofInt 8 (cellDelta i))).advance := by
  obtain rfl | rfl := hi
  · exact exec_add_normal hm hc
  · rw [exec_subtract_normal hm hc, subtractDelta, BitVec.sub_eq_add_neg]; rfl

theorem execAll_cons_of_next {ops : List Instr} (h : exec i s = .next t) : execAll (i :: ops) s = execAll ops t := by
  simp only [execAll, h]

/-- A list of Adds and Subtracts completes, and the sum of its deltas, modulo 256, joins the cell. -/
theorem execAll_cellDelta {ops : List Instr} (hops : ∀ i ∈ ops, i = .add ∨ i = .subtract) (h : TapeInv s)
    (hm : s.mode = .normal) (hc : s.cell? = some b) :
    ∃ t, execAll ops s = .next t ∧ CellSet s (b + BitVec.ofInt 8 (ops.map cellDelta).sum) ops.length t := by
  induction ops generalizing s b with
  | nil => exact ⟨s, rfl, by simpa using CellSet.refl hc⟩
  | cons i ops ih =>
    obtain ⟨hi, hops⟩ := List.forall_mem_cons.1 hops
    obtain ⟨t, hexec, hset⟩ := ih (s := (s.setCell (b + BitVec.ofInt 8 (cellDelta i))).advance) hops
      (tapeInv_setCell h _) hm (cell?_setCell h _)
    refine ⟨t, (execAll_cons_of_next (exec_cellDelta hi hm hc)).trans hexec, ?_⟩
    rw [List.map_cons, List.sum_cons, BitVec.ofInt_add, ← BitVec.add_assoc, List.length_cons, Nat.add_comm]
    exact (CellSet.setCell_advance h _).trans hset

/-- Settles O45: the deltas join the cell one after the other, and their sum is the Adds less the Subtracts. -/
theorem addsAndSubtractsSumModulo256 : Obligations.AddsAndSubtractsSumModulo256 := by
  intro ops s hops h hm
  have hc := cell?_of_tapeInv h
  obtain ⟨t, hexec, hset⟩ := execAll_cellDelta hops h hm hc
  refine ⟨_, t, (getElem?_toList_head s).trans hc, hexec, ?_, hset.frame⟩
  rw [hset.toList, sum_map_cellDelta, Int.add_sub_assoc, BitVec.ofInt_add, BitVec.ofInt_natCast, BitVec.ofNat_toNat,
    BitVec.setWidth_eq]

end Sys2Proof.Machine
end

section
/-! Proofs of the head family (42_head_ops.md): Right and Left move the head, add a zero cell at their edge and nowhere else,
and leave everything else alone. -/

namespace Sys2Proof.Machine

variable {s : State}

/-! ## Whether the cell that a move needs fits (R182) -/

theorem mayGrow_growRight_one (hlt : s.head < s.tape.len) :
    s.mayGrow (s.growRight 1) = true ↔
      (s.head + 1 = s.tape.len → ∀ m ∈ s.realisation.maxTapeCells, s.tape.len + 1 ≤ m) := by
  rw [mayGrow_eq_true_iff, growRight_one hlt]
  split
  next hedge => simp [hedge]
  next hin => simp [hin]

theorem mayGrow_growLeft_one :
    s.mayGrow (s.growLeft 1) = true ↔
      (s.head = 0 → ∀ m ∈ s.realisation.maxTapeCells, s.tape.len + 1 ≤ m) := by
  rw [mayGrow_eq_true_iff, growLeft_one]
  split
  next hedge => simp [hedge]
  next hin => simp [hin]

/-! ## The tape after a move (R120, R121) -/

@[simp] theorem Tape.append_zero (t : Tape) : t.append 0 = t := rfl

@[simp] theorem Tape.prepend_zero (t : Tape) : t.prepend 0 = t := by
  simp [Tape.prepend, Memory.shiftUp]

/-- Cells appended at the right edge leave every index before it as it was. -/
theorem Tape.read?_append_of_lt {t : Tape} {a : Nat} (ha : a < t.len) (n : Nat) : (t.append n).read? a = t.read? a := by
  rw [Tape.read?_append, Tape.read?, if_pos ha, if_pos (Nat.lt_add_right n ha)]

theorem shiftRight_one_tape_inside (hlt : s.head < s.tape.len) (hin : s.head + 1 ≠ s.tape.len) :
    (s.shiftRight 1).tape = s.tape := by
  rw [State.shiftRight_tape, growRight_one hlt, if_neg hin, Tape.append_zero]

theorem shiftLeft_one_tape_inside (hin : s.head ≠ 0) : (s.shiftLeft 1).tape = s.tape := by
  rw [State.shiftLeft_tape, growLeft_one, if_neg hin, Tape.prepend_zero]

theorem shiftLeft_one_head_inside (hin : s.head ≠ 0) : (s.shiftLeft 1).head + 1 = s.head := by
  rw [State.shiftLeft_head, growLeft_one, if_neg hin]
  exact Nat.sub_one_add_one hin

/-- The spec's test `head + 1 >= len(tape)` for the cell that Right appends (R120). -/
theorem shiftRight_one_toList (h : TapeInv s) :
    (s.shiftRight 1).tape.toList =
      if s.head + 1 ≥ s.tape.toList.length then s.tape.toList ++ [0x00#8] else s.tape.toList := by
  rw [Tape.length_toList]
  split
  next hge => exact shiftRight_one_toList_edge h (Nat.le_antisymm h.2 hge)
  next hlt => rw [shiftRight_one_tape_inside h.2 fun hedge => hlt hedge.ge]

/-- At index 0 Left leaves every existing cell one index higher (R121). -/
theorem shiftLeft_one_read?_succ (hedge : s.head = 0) (a : Nat) :
    (s.shiftLeft 1).tape.read? (a + 1) = s.tape.read? a := by
  rw [← Tape.getElem?_toList, shiftLeft_one_toList_edge hedge, List.getElem?_cons_succ, Tape.getElem?_toList]

/-! ## Right and Left in each mode (R96, R120, R121) -/

theorem exec_right_normal (hm : s.mode = .normal) (hg : s.mayGrow (s.growRight 1) = true) :
    exec .right s = .next (s.shiftRight 1).advance :=
  (unlessSkipping_normal hm _).trans (if_pos hg)

theorem exec_left_normal (hm : s.mode = .normal) (hg : s.mayGrow (s.growLeft 1) = true) :
    exec .left s = .next (s.shiftLeft 1).advance :=
  (unlessSkipping_normal hm _).trans (if_pos hg)

theorem exec_right_skipping {o : Nat} (hm : s.mode = .skipping o) : exec .right s = .next s.advance :=
  unlessSkipping_skipping hm _

theorem exec_left_skipping {o : Nat} (hm : s.mode = .skipping o) : exec .left s = .next s.advance :=
  unlessSkipping_skipping hm _

/-- Settles O18: with room for the cell it may need, a Normal-mode Right is `shift_right(1)` and the advance; a Skipping-mode
one is the advance alone. -/
theorem rightMovesTheHead : Obligations.RightMovesTheHead := by
  refine ⟨rfl, rfl, fun s h hm hroom => ?_, fun _ _ => exec_right_skipping⟩
  have hexec : exec .right s = .next (s.shiftRight 1).advance :=
    exec_right_normal hm ((mayGrow_growRight_one h.2).2 hroom)
  exact ⟨_, hexec, rfl, shiftRight_one_toList h, fun _ ha => Tape.read?_append_of_lt ha _, rfl⟩

/-- Settles O19: with room for the cell it may need, a Normal-mode Left is `shift_left(1)` and the advance, which prepends at
index 0 and moves the head elsewhere; a Skipping-mode one is the advance alone. -/
theorem leftMovesTheHead : Obligations.LeftMovesTheHead := by
  refine ⟨rfl, rfl, fun s h hm hroom => ?_, fun _ _ => exec_left_skipping⟩
  have hexec : exec .left s = .next (s.shiftLeft 1).advance :=
    exec_left_normal hm (mayGrow_growLeft_one.2 hroom)
  refine ⟨_, hexec, fun hedge => ?_, fun hin => ?_, rfl⟩
  · exact ⟨shiftLeft_one_head_edge hedge, shiftLeft_one_toList_edge hedge, shiftLeft_one_read?_succ hedge⟩
  · have htape := shiftLeft_one_tape_inside hin
    exact ⟨shiftLeft_one_head_inside hin, congrArg Tape.toList htape, fun a => congrArg (Tape.read? · a) htape⟩

end Sys2Proof.Machine
end

section
/-! Proofs of the loop family (44_loop_ops.md): what a LoopStart pushes and guards, and the one stack of both modes. -/

namespace Sys2Proof.Machine

variable {s t : State} {i : Instr} {b : Byte}

/-! ## LoopStart in each mode (R140, R141) -/

theorem exec_loopStart_skipping {o : Nat} (hp : s.mayPush = true) (hm : s.mode = .skipping o) :
    exec .loopStart s = .next s.pushLoop.advance := by
  simp only [exec, execLoopStart, if_pos hp, hm]

/-- The push comes first, and the guard then decides the mode alone. -/
theorem exec_loopStart_normal (hp : s.mayPush = true) (hm : s.mode = .normal) (hc : s.cell? = some b) :
    exec .loopStart s =
      .next { s.pushLoop with mode := if b = 0x00#8 then .skipping s.ip else .normal }.advance := by
  simp only [exec, execLoopStart, if_pos hp, hm, withCell_of_cell hc, loopGuard_eq_true_iff]
  by_cases hb : b = 0x00#8
  · rw [if_neg (not_not_intro hb), if_pos hb]
  · rw [if_pos hb, if_neg hb, ← hm]; rfl

/-- Settles O22: with room for the entry, the cell under the head is the guard of a Normal-mode LoopStart, and a Skipping-mode
one looks at no cell. -/
theorem loopStartPushesAndGuards : Obligations.LoopStartPushesAndGuards := by
  refine ⟨rfl, rfl, fun s h hm hroom => ?_, fun s _ hm hroom => ?_⟩
  · have hc := cell?_of_tapeInv h
    exact ⟨_, (getElem?_toList_head s).trans hc, exec_loopStart_normal ((mayPush_eq_true_iff s).2 hroom) hm hc⟩
  · exact exec_loopStart_skipping ((mayPush_eq_true_iff s).2 hroom) hm

/-! ## One stack for both modes (R144) -/

/-- Of the endings without a fault, in either mode, those of LoopStart push ip, those of LoopEnd pop one entry, and all others
leave the stack. -/
theorem Effect.lstack_cases (he : Effect s i t) (ht : t.status = .running) :
    (i = .loopStart ∧ t.lstack = s.lstack ++ [s.ip]) ∨
    (i = .loopEnd ∧ ∃ p, s.lstack = t.lstack ++ [p]) ∨
    (i ≠ .loopStart ∧ i ≠ .loopEnd ∧ t.lstack = s.lstack) := by
  cases he
  case noRoomPush | unmatched => cases ht
  case pushedSkipping | entered | skipBegan => exact .inl ⟨rfl, rfl⟩
  case skipEnded hm hl => exact .inr (.inl ⟨rfl, _, hl⟩)
  case skipWentOn hm hl hp => exact .inr (.inl ⟨rfl, _, hl⟩)
  case jumpedBack hm hl hc h0 => exact .inr (.inl ⟨rfl, _, hl⟩)
  case exited hm hl hc => exact .inr (.inl ⟨rfl, _, hl⟩)
  case skipped o hm hs he => exact .inr (.inr ⟨hs, he, rfl⟩)
  all_goals exact .inr (.inr ⟨nofun, nofun, rfl⟩)

/-- Settles O31: the step is the fetched operation, and its ending says what became of the stack. -/
theorem oneLoopStackForBothModes : Obligations.OneLoopStackForBothModes := by
  intro s t i hrun hf hstep ht
  have he : Effect s i t := exec_effect (step_of_fetch hrun hf ▸ hstep)
  obtain ⟨rfl, hpush⟩ | ⟨rfl, hpop⟩ | ⟨hstart, hend, hkeep⟩ := he.lstack_cases ht
  · exact ⟨fun _ => hpush, nofun, fun hstart => absurd rfl hstart⟩
  · exact ⟨nofun, fun _ => hpop, fun _ hend => absurd rfl hend⟩
  · exact ⟨fun h => absurd h hstart, fun h => absurd h hend, fun _ _ => hkeep⟩

end Sys2Proof.Machine
end

section
/-! Proofs of the reset family (70_reset_and_hazards.md): the tape and the head at reset, with every program loaded. -/

namespace Sys2Proof.Machine

/-! ## The tape and the head at reset (R191, R192) -/

/-- Loading writes the program store and leaves the tape of reset (R191, R197). -/
@[simp] theorem loadProgram_tape (r : Realisation) (p : Program) : (loadProgram r p).tape = State.reset.tape := rfl

@[simp] theorem loadProgram_head (r : Realisation) (p : Program) : (loadProgram r p).head = State.reset.head := rfl

theorem reset_tape_toList : State.reset.tape.toList = [0x00#8] := by decide

theorem reset_head : State.reset.head = 0 := rfl

/-- Settles O12: loading a program keeps the tape and the head of reset, and those are one zero cell and its index. -/
theorem resetTapeIsOneZeroCell : Obligations.ResetTapeIsOneZeroCell := by
  refine ⟨reset_tape_toList, reset_head, fun r p => ⟨?_, ?_⟩⟩
  · rw [loadProgram_tape, reset_tape_toList]
  · rw [loadProgram_head, reset_head]

end Sys2Proof.Machine
end

section
/-! Proofs about both encodings and the loaders (30_encoding.md): decode and encode agree on operations, programs and source
texts, positions count recognised bytes, and reading characters instead of bytes loads the same program. -/

namespace Sys2Proof

/-! ## One operation (R73, R80, R83) -/

theorem roundTrip (i : Instr) : Laws.RoundTrip.Statement i :=
  match i with
  | .add => Laws.RoundTrip.add
  | .subtract => Laws.RoundTrip.subtract
  | .read => Laws.RoundTrip.read
  | .write => Laws.RoundTrip.write
  | .left => Laws.RoundTrip.left
  | .right => Laws.RoundTrip.right
  | .loopStart => Laws.RoundTrip.loopStart
  | .loopEnd => Laws.RoundTrip.loopEnd

@[simp] theorem decode_encode (i : Instr) : decode (encode i) = some i := (roundTrip i).1

@[simp] theorem decodeCode_encodeCode (i : Instr) : decodeCode (encodeCode i) = i := (roundTrip i).2.1

/-- Settles O1: the eight bits of each byte are those of an operation's encoding, and that decodes to the operation. -/
theorem eightSourceBytesDecode : Obligations.EightSourceBytesDecode :=
  ⟨decode_encode .add, decode_encode .subtract, decode_encode .read, decode_encode .write, decode_encode .left,
    decode_encode .right, decode_encode .loopStart, decode_encode .loopEnd⟩

/-- Settles O3: an operation's code decodes to it, and each of the eight codes is some operation's. -/
theorem internalCodeIsABijection : Obligations.InternalCodeIsABijection :=
  ⟨decodeCode_encodeCode, by decide⟩

/-! ## Programs and source texts (R76, R81, R83) -/

/-- The loader's contract in the words of R81. -/
theorem loadSource_eq_filterMap (src : List Byte) : loadSource src = src.filterMap decode := by
  induction src with
  | nil => rfl
  | cons b src ih =>
    cases h : decode b with
    | none => rw [loadSource_cons_of_none h, List.filterMap_cons_none h, ih]
    | some i => rw [loadSource_cons_of_some h, List.filterMap_cons_some h, ih]

/-- The eight bytes of R73 are the bytes that decode. -/
theorem mem_eightBytes_iff (b : Byte) :
    b ∈ [0x2B#8, 0x2D#8, 0x2C#8, 0x2E#8, 0x3C#8, 0x3E#8, 0x5B#8, 0x5D#8] ↔ (decode b).isSome = true := by
  constructor
  · intro hb
    have all : ∀ c ∈ [0x2B#8, 0x2D#8, 0x2C#8, 0x2E#8, 0x3C#8, 0x3E#8, 0x5B#8, 0x5D#8], (decode c).isSome = true := by decide
    exact all b hb
  · intro h
    obtain ⟨i, hi⟩ := Option.isSome_iff_exists.1 h
    exact encode_of_decode hi ▸ encode_mem_eightBytes i

theorem loadSource_render (p : Program) : loadSource (render p) = p := by
  rw [loadSource_eq_filterMap, render, List.filterMap_map]
  exact (List.filterMap_congr fun i _ => decode_encode i).trans List.filterMap_some

/-- Each byte that decodes is the byte of its operation, so rendering gives the recognised bytes back (R83). -/
theorem render_loadSource (src : List Byte) :
    render (loadSource src) =
      src.filter (fun b => decide (b ∈ [0x2B#8, 0x2D#8, 0x2C#8, 0x2E#8, 0x3C#8, 0x3E#8, 0x5B#8, 0x5D#8])) := by
  simp only [mem_eightBytes_iff, Bool.decide_eq_true]
  induction src with
  | nil => rfl
  | cons b src ih =>
    cases h : decode b with
    | none => rw [loadSource_cons_of_none h, List.filter_cons_of_neg (by simp [h]), ih]
    | some i =>
      rw [loadSource_cons_of_some h, List.filter_cons_of_pos (by simp [h]), ← ih, render, List.map_cons,
        encode_of_decode h]
      rfl

/-- Settles O4: decode inverts encode on every operation, and encode inverts decode on every recognised byte. -/
theorem loadAndRenderAgree : Obligations.LoadAndRenderAgree := ⟨loadSource_render, render_loadSource⟩

theorem length_loadSource (src : List Byte) : (loadSource src).length = src.countP (fun b => (decode b).isSome) := by
  rw [loadSource_eq_filterMap, List.length_filterMap_eq_countP]

/-- Wherever a recognised byte stands, the program holds its operation behind those of the text before it. -/
theorem getElem?_loadSource_append_cons {b : Byte} {i : Instr} (h : decode b = some i) (before after : List Byte) :
    (loadSource (before ++ b :: after))[(loadSource before).length]? = some i := by
  rw [loadSource_append, loadSource_cons_of_some h, List.getElem?_append_right (Nat.le_refl _), Nat.sub_self]
  rfl

/-- Settles O5: loading keeps one operation per recognised byte, in order, so the text before a byte counts its position. -/
theorem positionsCountRecognisedBytes : Obligations.PositionsCountRecognisedBytes :=
  ⟨length_loadSource, fun before after _ _ h =>
    length_loadSource before ▸ getElem?_loadSource_append_cons h before after⟩

/-! ## Reading characters (R82) -/

/-- What is read of a character so far makes it no operation's: each byte still to come is at least 0x80, and so is the number
that results. -/
def Utf8Part.High : Utf8Part → Prop
  | .whole c => 0x80 ≤ c
  | .begun more lo _ acc => 1 ≤ more ∧ 0x80 ≤ lo ∧ 2 ≤ acc * 64 + (lo - 0x80) ∧ (more = 1 → 2 ≤ acc)

/-- At the start of a character a byte is a whole ASCII character, or it is no operation's byte and begins a high one. -/
theorem utf8Lead_whole_or_high {b : Byte} {part : Utf8Part} (h : utf8Lead b = some part) :
    part = .whole b.toNat ∨ (decode b = none ∧ part.High) := by
  obtain ⟨rfl, -⟩ | ⟨more, lo, hi, acc, rfl, hb, hmore, hlo, hacc, hlast⟩ := utf8Lead_eq_some h
  · exact .inl rfl
  · exact .inr ⟨decode_of_high hb, hmore, hlo, hacc, hlast⟩

/-- Inside a high character the next byte is no operation's and leaves it high. -/
theorem utf8Next_high {more lo hi acc : Nat} {b : Byte} {part : Utf8Part} (hpart : (Utf8Part.begun more lo hi acc).High)
    (h : utf8Next more lo hi acc b = some part) : decode b = none ∧ part.High := by
  obtain ⟨hmore, hlo, hacc, hlast⟩ := hpart
  obtain ⟨hb, -, num, hnum, ⟨hone, rfl⟩ | ⟨hmany, rfl⟩⟩ := utf8Next_eq_some h
  · have := hlast hone
    exact ⟨decode_of_high (by omega), show 0x80 ≤ num by omega⟩
  · exact ⟨decode_of_high (by omega), by omega, Nat.le_refl _, by omega, fun _ => by omega⟩

/-- The characters after a whole one, or after the beginning of a high one, give the operations of the bytes that are left. -/
theorem filterMap_decodeChar_utf8From {src : List Byte} {part : Utf8Part} {cs : List Nat}
    (hpart : (∃ c, part = .whole c) ∨ part.High) (h : utf8From part src = some cs) :
    cs.filterMap decodeChar = loadSource src := by
  induction src generalizing part cs with
  | nil =>
    cases part with
    | whole c => cases h; rfl
    | begun => cases h
  | cons b src ih =>
    have hbyte : ∀ {part'}, utf8Byte part b = some part' →
        part' = .whole b.toNat ∨ (decode b = none ∧ part'.High) := by
      intro part' hb
      cases part with
      | whole c => exact utf8Lead_whole_or_high hb
      | begun more lo hi acc =>
        obtain ⟨c, hc⟩ | hhigh := hpart
        · cases hc
        · exact .inr (utf8Next_high hhigh hb)
    obtain ⟨c, cs', hb, hrest, rfl⟩ | ⟨more, lo, hi, acc, hb, hrest⟩ := utf8From_cons_eq_some h
    · have hih := ih (.inl ⟨c, rfl⟩) hrest
      obtain hc | ⟨hnone, hhigh⟩ := hbyte hb
      · cases hc
        rw [loadSource_eq_filterMap] at hih ⊢
        rw [List.filterMap_cons, List.filterMap_cons, decodeChar_toNat, hih]
      · rw [List.filterMap_cons_none (decodeChar_of_high hhigh), loadSource_cons_of_none hnone, hih]
    · obtain hc | ⟨hnone, hhigh⟩ := hbyte hb
      · cases hc
      · rw [loadSource_cons_of_none hnone, ih (.inr hhigh) hrest]

/-- Settles O53: by induction on the bytes, a character of one byte gives that byte's operation, and a longer one gives none, as
none of its bytes does. -/
theorem characterWiseLoadingAgrees : Obligations.CharacterWiseLoadingAgrees := by
  refine ⟨fun src h => ?_, fun src h => ?_, fun i => ⟨?_, ?_⟩⟩
  · obtain ⟨cs, hcs⟩ := Option.isSome_iff_exists.1 h
    rw [loadCharacters, hcs, Option.map_some, filterMap_decodeChar_utf8From (.inl ⟨0, rfl⟩) hcs]
  · rw [loadCharacters, Option.not_isSome_iff_eq_none.1 (Bool.eq_false_iff.1 h), Option.map_none]
  · cases i <;> rfl
  · rw [decodeChar_toNat, decode_encode]

end Sys2Proof
end

section
/-! Proofs about the other bodies of the eight operations: Read and Write (43_io_ops.md), LoopEnd (44_loop_ops.md), every
operation in Skipping mode, at the bounds of a finite realisation, and with the head off the tape. -/

namespace Sys2Proof.Machine

variable {s : State} {i : Instr} {b c : Byte}

/-! ## Read on each answer (R130, R132, R178) -/

theorem inRead_of_answer {a : InAnswer} {rest : List InAnswer} (hi : s.ports.inAnswers = a :: rest) :
    s.inRead = some (a, s.tookInput rest a.bytes) :=
  inRead_eq_some.2 ⟨rest, hi, rfl⟩

theorem exec_read_waits (hm : s.mode = .normal) (hc : s.cell? = some c) (hi : s.ports.inAnswers = []) :
    exec .read s = .next (s.await .input) := by
  simp only [exec, execRead, unlessSkipping_normal hm, withCell_of_cell hc, inRead_eq_none.2 hi]

theorem exec_read_byte {rest : List InAnswer} (hm : s.mode = .normal) (hc : s.cell? = some c)
    (hi : s.ports.inAnswers = .byte b :: rest) :
    exec .read s = .next ((s.tookInput rest [b]).setCell b).advance := by
  simp only [exec, execRead, unlessSkipping_normal hm, withCell_of_cell hc, inRead_of_answer hi, InAnswer.bytes]

theorem exec_read_exhausted {rest : List InAnswer} (hm : s.mode = .normal) (hc : s.cell? = some c)
    (hi : s.ports.inAnswers = .exhausted :: rest) :
    exec .read s = .next ((s.tookInput rest []).raise .inputFailure .exhausted) := by
  simp only [exec, execRead, unlessSkipping_normal hm, withCell_of_cell hc, inRead_of_answer hi, InAnswer.bytes]

theorem exec_read_error {rest : List InAnswer} (hm : s.mode = .normal) (hc : s.cell? = some c)
    (hi : s.ports.inAnswers = .error :: rest) :
    exec .read s = .next ((s.tookInput rest []).raise .inputFailure .channelError) := by
  simp only [exec, execRead, unlessSkipping_normal hm, withCell_of_cell hc, inRead_of_answer hi, InAnswer.bytes]

theorem exec_read_skipping {o : Nat} (hm : s.mode = .skipping o) : exec .read s = .next s.advance :=
  unlessSkipping_skipping hm _

/-- A transaction without a byte leaves the input stream. -/
theorem State.tookInput_nil (s : State) (rest : List InAnswer) :
    s.tookInput rest [] = { s with wait := none, ports := { s.ports with inAnswers := rest } } := by
  rw [State.tookInput, List.append_nil]

/-- Settles O20: the three answers of the input port and Skipping mode are the four ways a Read can end here. -/
theorem readStoresOneInputByte : Obligations.ReadStoresOneInputByte := by
  refine ⟨rfl, rfl, fun s b rest h hm hi => ?_, fun s rest h hm hi => ?_, fun s rest h hm hi => ?_,
    fun _ _ => exec_read_skipping⟩
  · have hset : CellSet (s.tookInput rest [b]) b 1 _ := CellSet.setCell_advance (s := s.tookInput rest [b]) h b
    exact ⟨_, exec_read_byte hm (cell?_of_tapeInv h) hi, hset.toList, fun _ => hset.read?_of_ne, hset.frame⟩
  · rw [exec_read_exhausted hm (cell?_of_tapeInv h) hi, State.tookInput_nil]; rfl
  · rw [exec_read_error hm (cell?_of_tapeInv h) hi, State.tookInput_nil]; rfl

/-! ## Write on each answer (R131, R164, R178) -/

theorem outWrite_of_answer {a : OutAnswer} {rest : List OutAnswer} (ho : s.ports.outAnswers = a :: rest) :
    s.outWrite c = some (a, s.tookOutput rest (a.bytes c)) :=
  outWrite_eq_some.2 ⟨rest, ho, rfl⟩

theorem exec_write_waits (hm : s.mode = .normal) (hc : s.cell? = some c) (ho : s.ports.outAnswers = []) :
    exec .write s = .next (s.await (.output c)) := by
  simp only [exec, execWrite, unlessSkipping_normal hm, withCell_of_cell hc, outWrite_eq_none.2 ho]

theorem exec_write_ok {rest : List OutAnswer} (hm : s.mode = .normal) (hc : s.cell? = some c)
    (ho : s.ports.outAnswers = .ok :: rest) : exec .write s = .next (s.tookOutput rest [c]).advance := by
  simp only [exec, execWrite, unlessSkipping_normal hm, withCell_of_cell hc, outWrite_of_answer ho, OutAnswer.bytes]

theorem exec_write_error {rest : List OutAnswer} (hm : s.mode = .normal) (hc : s.cell? = some c)
    (ho : s.ports.outAnswers = .error :: rest) :
    exec .write s = .next ((s.tookOutput rest []).raise .outputFailure .channelError) := by
  simp only [exec, execWrite, unlessSkipping_normal hm, withCell_of_cell hc, outWrite_of_answer ho, OutAnswer.bytes]

theorem exec_write_skipping {o : Nat} (hm : s.mode = .skipping o) : exec .write s = .next s.advance :=
  unlessSkipping_skipping hm _

/-- A transaction answered OutError leaves the output stream. -/
theorem State.tookOutput_nil (s : State) (rest : List OutAnswer) :
    s.tookOutput rest [] = { s with wait := none, ports := { s.ports with outAnswers := rest } } := by
  rw [State.tookOutput, List.append_nil]

/-- Settles O21: the two answers of the output port and Skipping mode are the three ways a Write can end here. -/
theorem writeEmitsTheCell : Obligations.WriteEmitsTheCell := by
  refine ⟨rfl, rfl, fun s rest h hm ho => ?_, fun s rest h hm ho => ?_, fun _ _ => exec_write_skipping⟩
  · have hc := cell?_of_tapeInv h
    exact ⟨_, (getElem?_toList_head s).trans hc, exec_write_ok hm hc ho⟩
  · rw [exec_write_error hm (cell?_of_tapeInv h) ho, State.tookOutput_nil]; rfl

/-! ## A late answer (R178) -/

/-- An answered Read ends the wait, so what it waited in does not matter. -/
theorem exec_read_await {a : InAnswer} {rest : List InAnswer} (hm : s.mode = .normal) (hc : s.cell? = some c)
    (hi : s.ports.inAnswers = a :: rest) (r : Request) : exec .read (s.await r) = exec .read s := by
  cases a with
  | byte b => rw [exec_read_byte hm hc hi, exec_read_byte (s := s.await r) hm hc hi]; rfl
  | exhausted => rw [exec_read_exhausted hm hc hi, exec_read_exhausted (s := s.await r) hm hc hi]; rfl
  | error => rw [exec_read_error hm hc hi, exec_read_error (s := s.await r) hm hc hi]; rfl

/-- An answered Write ends the wait, so what it waited in does not matter. -/
theorem exec_write_await {a : OutAnswer} {rest : List OutAnswer} (hm : s.mode = .normal) (hc : s.cell? = some c)
    (ho : s.ports.outAnswers = a :: rest) (r : Request) : exec .write (s.await r) = exec .write s := by
  cases a with
  | ok => rw [exec_write_ok hm hc ho, exec_write_ok (s := s.await r) hm hc ho]; rfl
  | error => rw [exec_write_error hm hc ho, exec_write_error (s := s.await r) hm hc ho]; rfl

/-- Settles O27: a wait records the request alone, and an answered operation looks at everything but that record. -/
theorem waitingStepResumesOnTheAnswer : Obligations.WaitingStepResumesOnTheAnswer := by
  refine ⟨fun s h hm hi => ?_, fun s h hm ho => ?_⟩
  · have hc := cell?_of_tapeInv h
    exact ⟨exec_read_waits hm hc hi, exec_read_waits (s := s.await .input) hm hc hi, fun a =>
      ⟨_, answerInput_eq_some.2 ⟨rfl, hi, rfl⟩,
        exec_read_await (s := { s with ports := { s.ports with inAnswers := [a] } }) hm hc rfl .input⟩⟩
  · have hc := cell?_of_tapeInv h
    exact ⟨_, (getElem?_toList_head s).trans hc, exec_write_waits hm hc ho,
      exec_write_waits (s := s.await (.output _)) hm hc ho, fun a =>
      ⟨_, answerOutput_eq_some.2 ⟨⟨_, rfl⟩, ho, rfl⟩,
        exec_write_await (s := { s with ports := { s.ports with outAnswers := [a] } }) hm hc rfl (.output _)⟩⟩

/-! ## LoopEnd in each mode (R142, R143, R162) -/

theorem popLoop_of_append {st : List Nat} {p : Nat} (hl : s.lstack = st ++ [p]) :
    s.popLoop = some (p, { s with lstack := st }) :=
  popLoop_eq_some.2 ⟨st, hl, rfl⟩

theorem exec_loopEnd_unmatched (hl : s.lstack = []) : exec .loopEnd s = .next (s.raise .unmatchedLoopEnd .none) := by
  simp only [exec, execLoopEnd, popLoop_eq_none.2 hl]

/-- In Normal mode the pop comes before the look at the cell. -/
theorem exec_loopEnd_withCell {st : List Nat} {p : Nat} (hm : s.mode = .normal) (hl : s.lstack = st ++ [p]) :
    exec .loopEnd s = State.withCell { s with lstack := st } fun c =>
      if loopGuard c then .next (State.jumpTo p { s with lstack := st })
      else .next (State.advance { s with lstack := st }) := by
  simp only [exec, execLoopEnd, popLoop_of_append hl]
  split
  next o ho => rw [hm] at ho; cases ho
  next => rfl

/-- The guard decides where ip goes. -/
theorem exec_loopEnd_normal {st : List Nat} {p : Nat} (hm : s.mode = .normal) (hl : s.lstack = st ++ [p])
    (hc : s.cell? = some b) :
    exec .loopEnd s = .next { s with lstack := st, ip := if b = 0x00#8 then s.ip + 1 else p } := by
  rw [exec_loopEnd_withCell hm hl, withCell_of_cell (s := { s with lstack := st }) hc]
  by_cases hb : b = 0x00#8
  · rw [if_neg (by simpa using hb), if_pos hb]; rfl
  · rw [if_pos (by simpa using hb), if_neg hb]; rfl

/-- The pop comes first, and the popped entry then decides the mode. -/
theorem exec_loopEnd_skipping {st : List Nat} {p o : Nat} (hm : s.mode = .skipping o) (hl : s.lstack = st ++ [p]) :
    exec .loopEnd s =
      .next { s with lstack := st, mode := if p = o then .normal else .skipping o, ip := s.ip + 1 } := by
  simp only [exec, execLoopEnd, popLoop_of_append hl, hm]
  by_cases hp : p = o
  · rw [if_pos hp, if_pos hp]; rfl
  · rw [if_neg hp, if_neg hp, ← hm]; rfl

/-- Settles O23: on a nonempty stack LoopEnd pops, and then the guard (Normal) or the popped entry (Skipping) decides. -/
theorem loopEndPopsAndJumps : Obligations.LoopEndPopsAndJumps := by
  refine ⟨rfl, rfl, fun _ => exec_loopEnd_unmatched, fun s st p h hm hl => ?_,
    fun s st p o hm hl => ⟨fun hp => ?_, fun hp => ?_⟩⟩
  · have hc := cell?_of_tapeInv h
    refine ⟨_, (getElem?_toList_head s).trans hc, fun h0 => ?_, fun h0 => ?_⟩
    · rw [exec_loopEnd_normal hm hl hc, if_neg h0]
    · rw [exec_loopEnd_normal hm hl hc, if_pos h0]
  · rw [exec_loopEnd_skipping hm hl, if_pos hp]
  · rw [exec_loopEnd_skipping hm hl, if_neg hp, ← hm]

/-! ## Skipping mode (R96) -/

/-- The six operations other than the brackets only advance. -/
theorem exec_plain_skipping {o : Nat} (hm : s.mode = .skipping o) (hs : i ≠ .loopStart) (he : i ≠ .loopEnd) :
    exec i s = .next s.advance := by
  cases i with
  | add => exact exec_add_skipping hm
  | subtract => exact exec_subtract_skipping hm
  | read => exact exec_read_skipping hm
  | write => exact exec_write_skipping hm
  | left => exact exec_left_skipping hm
  | right => exact exec_right_skipping hm
  | loopStart => exact absurd rfl hs
  | loopEnd => exact absurd rfl he

/-- With no room for the entry a LoopStart faults before it looks at the mode (R165, R182). -/
theorem exec_loopStart_noRoom (hp : s.mayPush = false) :
    exec .loopStart s = .next (s.raise .loopStackOverflow .none) := by
  simp [exec, execLoopStart, hp]

/-- Settles O25: a plain operation advances; a LoopStart pushes or has no room; a LoopEnd pops or finds the stack empty. -/
theorem skippingSuppressesEffects : Obligations.SkippingSuppressesEffects := by
  intro s o i hm
  by_cases hs : i = .loopStart
  · subst hs
    cases hp : s.mayPush with
    | true => exact ⟨_, exec_loopStart_skipping hp hm, rfl, rfl, nofun, fun _ _ => rfl, nofun, nofun⟩
    | false =>
      have hno : ¬ ∀ m ∈ s.realisation.maxLoopDepth, s.lstack.length + 1 ≤ m := by
        rw [← mayPush_eq_true_iff, hp]; exact Bool.false_ne_true
      exact ⟨_, exec_loopStart_noRoom hp, rfl, rfl, nofun, fun _ hroom => absurd hroom hno, nofun, nofun⟩
  by_cases he : i = .loopEnd
  · subst he
    obtain hl | ⟨st, p, hl⟩ := List.eq_nil_or_concat' s.lstack
    · refine ⟨_, exec_loopEnd_unmatched hl, rfl, rfl, fun _ h => absurd rfl h, nofun, fun _ _ => rfl, fun st p _ hl' => ?_⟩
      exact absurd (hl.symm.trans hl') (List.append_ne_nil_of_right_ne_nil st (List.cons_ne_nil p [])).symm
    · refine ⟨_, exec_loopEnd_skipping hm hl, rfl, rfl, fun _ h => absurd rfl h, nofun, fun _ hl' => ?_,
        fun st' p' _ hl' => ?_⟩
      · exact absurd (hl.symm.trans hl') (List.append_ne_nil_of_right_ne_nil st (List.cons_ne_nil p []))
      · obtain ⟨rfl, hp⟩ := List.append_inj' (hl.symm.trans hl') rfl
        cases hp; rfl
  · exact ⟨_, exec_plain_skipping hm hs he, rfl, rfl, fun _ _ => rfl, fun h => absurd h hs, fun h => absurd h he,
      fun _ _ h => absurd h he⟩

/-! ## The bounds of a finite realisation (R182) -/

theorem exec_right_noRoom (hm : s.mode = .normal) (hg : s.mayGrow (s.growRight 1) = false) :
    exec .right s = .next (s.raise .tapeCapacityExceeded .none) := by
  simp only [exec, execRight, unlessSkipping_normal hm, hg, Bool.false_eq_true, if_false]

theorem exec_left_noRoom (hm : s.mode = .normal) (hg : s.mayGrow (s.growLeft 1) = false) :
    exec .left s = .next (s.raise .tapeCapacityExceeded .none) := by
  simp only [exec, execLeft, unlessSkipping_normal hm, hg, Bool.false_eq_true, if_false]

/-- No cell fits on a tape at its bound. -/
theorem mayGrow_one_eq_false {m : Nat} (hb : s.realisation.maxTapeCells = some m) (hm : m < s.tape.len + 1) :
    s.mayGrow 1 = false := by
  rw [Bool.eq_false_iff, Ne, mayGrow_eq_true_iff]
  rintro (h | h)
  · cases h
  · exact absurd (h m hb) (Nat.not_le.2 hm)

theorem mayPush_eq_false {m : Nat} (hb : s.realisation.maxLoopDepth = some m) (hm : m < s.lstack.length + 1) :
    s.mayPush = false := by
  rw [Bool.eq_false_iff, Ne, mayPush_eq_true_iff]
  exact fun h => absurd (h m hb) (Nat.not_le.2 hm)

/-- Settles O26: at the tape's bound each edge needs the one cell that does not fit, and so does the entry at the
stack's bound. -/
theorem finiteRealisationFaultsAtItsBounds : Obligations.FiniteRealisationFaultsAtItsBounds := by
  refine ⟨fun s m h hm hb hfull => ⟨fun hedge => ?_, fun hedge => ?_⟩, fun s m hb hfull => ?_⟩
  · exact exec_right_noRoom hm (by rw [growRight_one h.2, if_pos hedge, mayGrow_one_eq_false hb hfull])
  · exact exec_left_noRoom hm (by rw [growLeft_one, if_pos hedge, mayGrow_one_eq_false hb hfull])
  · exact exec_loopStart_noRoom (mayPush_eq_false hb hfull)

/-! ## The head off the tape (log 7) -/

theorem withCell_off_tape (h : s.tape.len ≤ s.head) (body : Byte → Host.Outcome State Fault Refusal) :
    s.withCell body = .fault .headOffTape := by
  have hnone : s.cell? = none := if_neg (Nat.not_lt.2 h)
  simp only [State.withCell, hnone]

/-- Settles O24: each of these bodies looks at the cell under the head, and there is none. -/
theorem accessOffTheTapeStops : Obligations.AccessOffTheTapeStops := by
  refine fun s hm hoff => ⟨fun i hi => ?_, fun hp => ?_, fun hl => ?_⟩
  · obtain rfl | rfl | rfl | rfl := hi <;> exact (unlessSkipping_normal hm _).trans (withCell_off_tape hoff _)
  · simp only [exec, execLoopStart, if_pos hp, hm, withCell_off_tape hoff]
  · obtain hnil | ⟨st, p, hl'⟩ := List.eq_nil_or_concat' s.lstack
    · exact absurd hnil hl
    · exact (exec_loopEnd_withCell hm hl').trans (withCell_off_tape (s := { s with lstack := st }) hoff _)

end Sys2Proof.Machine
end

section
/-! Proofs about one step: it is the fetched operation, it stops after a fault and rests after completion, and what it can write
of the cells, the status and the ports (20_memory.md R57, R63; 60_exceptions.md R160 to R167). -/

namespace Sys2Proof.Machine

variable {s t : State} {i : Instr} {f : FaultRecord}

/-! ## Which operation, and when none (R91 to R93, R102) -/

/-- Settles O6: the fetch reads the program store at ip, and loading puts a byte's operation at the position it has there. -/
theorem stepRunsTheFetchedOperation : Obligations.StepRunsTheFetchedOperation := by
  refine ⟨fun s i hrun hf => step_of_fetch hrun hf, fun s before after b i hrun hprog hip hb => ?_⟩
  refine step_of_fetch hrun ?_
  rw [State.fetch, hprog, hip]
  exact getElem?_loadSource_append_cons hb before after

/-- The step replies Continue exactly where it neither faulted nor waits. -/
theorem stepReply_eq_cont_iff {more : Bool} :
    stepReply t = some (.cont more) ↔
      t.status = .running ∧ t.wait = none ∧ decide (t.ip < t.prog.length) = more := by
  unfold stepReply
  split
  next f hf => simp [hf]
  next hrun =>
    split
    next r hw => simp [hw]
    next hw => simp [hrun, hw]

theorem stepTimes_of_step_self (h : step t = .next t) (n : Nat) : stepTimes n t = .next t := by
  induction n with
  | zero => rfl
  | succ n ih => simp only [stepTimes, h, ih]

/-- Settles O8: Continue(false) says that ip is at the end, where each further step is the end check. -/
theorem stepAfterCompletionIsHarmless : Obligations.StepAfterCompletionIsHarmless := by
  intro s t _ hreply n
  obtain ⟨hrun, -, hend⟩ := stepReply_eq_cont_iff.1 hreply
  have hf : t.fetch = none := fetch_eq_none.2 (Nat.le_of_not_lt (of_decide_eq_false hend))
  exact stepTimes_of_step_self (step_of_fetch_none hrun hf) n

/-- Settles O9: the step looks at the status before it looks at anything else. -/
theorem stepAfterFaultIsRefused : Obligations.StepAfterFaultIsRefused := by
  intro s f h
  simp only [step, h]

/-! ## The cells (R25, R57) -/

/-- Seen from where the head was, the cells of `t` are those of `s`, but for the one under the head where the operation writes it;
the head has moved by `shift`. -/
def CellsMoved (s : State) (i : Instr) (t : State) (shift : Int) : Prop :=
  (shift = 0 ∨ (shift = 1 ∧ i = .right ∧ s.mode = .normal) ∨ (shift = -1 ∧ i = .left ∧ s.mode = .normal)) ∧
  ∀ d : Int, cellAt t d = cellAt s (d + shift) ∨
    (d = 0 ∧ shift = 0 ∧ s.mode = .normal ∧ (i = .add ∨ i = .subtract ∨ i = .read))

theorem cellsMoved_of_tape_eq (ht : t.tape = s.tape) (hh : t.head = s.head) : CellsMoved s i t 0 :=
  ⟨.inl rfl, fun d => .inl (by rw [Int.add_zero]; exact cellAt_congr ht hh d)⟩

/-- A write of the cell under the head keeps every other cell at its distance. -/
theorem cellsMoved_setCell {u : State} (hu : TapeInv u) (hcells : ∀ d, cellAt u d = cellAt s d) (hm : s.mode = .normal)
    (hi : i = .add ∨ i = .subtract ∨ i = .read) (v : Byte) : CellsMoved s i (u.setCell v).advance 0 := by
  refine ⟨.inl rfl, fun d => ?_⟩
  by_cases hd : d = 0
  · exact .inr ⟨hd, rfl, hm, hi⟩
  · rw [cellAt_advance, cellAt_setCell hu, if_neg hd, hcells, Int.add_zero]
    exact .inl rfl

/-- Every ending moves the cells by the head's one step or not at all, and only three write one, the cell under the head. -/
theorem Effect.cellsMoved (he : Effect s i t) (h : TapeInv s) : ∃ shift, CellsMoved s i t shift := by
  cases he
  case added hm hc => exact ⟨0, cellsMoved_setCell h (fun _ => rfl) hm (.inl rfl) _⟩
  case subtracted hm hc => exact ⟨0, cellsMoved_setCell h (fun _ => rfl) hm (.inr (.inl rfl)) _⟩
  case readByte rest hm hc hi =>
    exact ⟨0, cellsMoved_setCell (u := s.tookInput rest _) h (cellAt_tookInput s _ _) hm (.inr (.inr rfl)) _⟩
  case movedRight hm hg => exact ⟨1, .inr (.inl ⟨rfl, rfl, hm⟩), fun d => .inl (cellAt_shiftRight h 1 d)⟩
  case movedLeft hm hg => exact ⟨-1, .inr (.inr ⟨rfl, rfl, hm⟩), fun d => .inl (cellAt_shiftLeft h 1 d)⟩
  all_goals exact ⟨0, cellsMoved_of_tape_eq rfl rfl⟩

/-- Settles O30: the end check keeps every cell, and an operation's ending moves or writes them as it says. -/
theorem onlyCellOperationsWriteTheCell : Obligations.OnlyCellOperationsWriteTheCell := by
  intro s t h hs
  obtain ⟨-, ⟨-, rfl⟩ | ⟨i, hf, he⟩⟩ := step_effect hs
  · exact ⟨0, .inl rfl, fun d => .inl (by rw [Int.add_zero])⟩
  · simpa only [hf, Option.some.injEq, CellsMoved] using he.cellsMoved h

/-! ## Faults (R160 to R167, R182) -/

/-- The four causes of a fault that every realisation has, each with its record (R162 to R164). -/
def FaultCause (s : State) (i : Instr) (f : FaultRecord) : Prop :=
  (i = .loopEnd ∧ s.lstack = [] ∧ f = { kind := .unmatchedLoopEnd, sub := .none, pos := s.ip }) ∨
  (i = .read ∧ s.mode = .normal ∧ s.ports.inAnswers.head? = some .exhausted ∧
    f = { kind := .inputFailure, sub := .exhausted, pos := s.ip }) ∨
  (i = .read ∧ s.mode = .normal ∧ s.ports.inAnswers.head? = some .error ∧
    f = { kind := .inputFailure, sub := .channelError, pos := s.ip }) ∨
  (i = .write ∧ s.mode = .normal ∧ s.ports.outAnswers.head? = some .error ∧
    f = { kind := .outputFailure, sub := .channelError, pos := s.ip })

/-- The seven endings that fault: on one of the four causes, or at a bound of a finite realisation (R182). -/
theorem Effect.fault_cases (he : Effect s i t) (hrun : s.status = .running) (ht : t.status = .faulted f) :
    FaultCause s i f ∨
    ((i = .left ∨ i = .right) ∧ (∃ n, s.mayGrow n = false) ∧
      f = { kind := .tapeCapacityExceeded, sub := .none, pos := s.ip }) ∨
    (i = .loopStart ∧ s.mayPush = false ∧ f = { kind := .loopStackOverflow, sub := .none, pos := s.ip }) := by
  cases he
  case unmatched hl => cases ht; exact .inl (.inl ⟨rfl, hl, rfl⟩)
  case readExhausted hm hc hi => cases ht; exact .inl (.inr (.inl ⟨rfl, hm, by rw [hi]; rfl, rfl⟩))
  case readError hm hc hi => cases ht; exact .inl (.inr (.inr (.inl ⟨rfl, hm, by rw [hi]; rfl, rfl⟩)))
  case writeError hm hc ho => cases ht; exact .inl (.inr (.inr (.inr ⟨rfl, hm, by rw [ho]; rfl, rfl⟩)))
  case noRoomLeft hm hg => cases ht; exact .inr (.inl ⟨.inl rfl, ⟨_, hg⟩, rfl⟩)
  case noRoomRight hm hg => cases ht; exact .inr (.inl ⟨.inr rfl, ⟨_, hg⟩, rfl⟩)
  case noRoomPush hp => cases ht; exact .inr (.inr ⟨rfl, hp, rfl⟩)
  all_goals cases hrun.symm.trans ht

/-- A cause leaves the operation one ending, the one that faults: the others need another stack, mode or answer. -/
theorem Effect.status_of_cause (he : Effect s i t) (hcause : FaultCause s i f) : t.status = .faulted f := by
  obtain ⟨rfl, hl, rfl⟩ | ⟨rfl, hm, hi, rfl⟩ | ⟨rfl, hm, hi, rfl⟩ | ⟨rfl, hm, ho, rfl⟩ := hcause
  · cases he
    case unmatched => rfl
    all_goals simp_all
  · cases he
    case readExhausted => rfl
    all_goals simp_all
  · cases he
    case readError => rfl
    all_goals simp_all
  · cases he
    case writeError => rfl
    all_goals simp_all

/-- A fault names ip and an operation that can raise it. -/
theorem Effect.fault_named (he : Effect s i t) (hrun : s.status = .running) (ht : t.status = .faulted f) :
    f.pos = s.ip ∧ canRaise i f.kind = true := by
  obtain (⟨rfl, -, rfl⟩ | ⟨rfl, -, -, rfl⟩ | ⟨rfl, -, -, rfl⟩ | ⟨rfl, -, -, rfl⟩) | ⟨rfl | rfl, -, rfl⟩ |
      ⟨rfl, -, rfl⟩ :=
    he.fault_cases hrun ht
  all_goals exact ⟨rfl, rfl⟩

/-- A faulting ending writes no field of the engine but `status`, and moves no byte (R165, D5). -/
theorem Effect.fault_frame (he : Effect s i t) (hrun : s.status = .running) (ht : t.status = .faulted f) :
    t = { s with status := t.status, wait := t.wait, ports := t.ports } ∧
    t.ports.inStream = s.ports.inStream ∧ t.ports.outStream = s.ports.outStream := by
  cases he
  case readExhausted | readError => exact ⟨rfl, List.append_nil _, rfl⟩
  case writeError => exact ⟨rfl, rfl, List.append_nil _⟩
  case unmatched | noRoomLeft | noRoomRight | noRoomPush => exact ⟨rfl, rfl, rfl⟩
  all_goals cases hrun.symm.trans ht

/-- Settles O33: the end check raises nothing, and a faulting ending of the fetched operation is precise. -/
theorem faultsArePrecise : Obligations.FaultsArePrecise := by
  intro s t f hrun hs ht
  obtain ⟨-, ⟨-, rfl⟩ | ⟨i, hf, he⟩⟩ := step_effect hs
  · cases hrun.symm.trans ht
  · obtain ⟨hpos, hkind⟩ := he.fault_named hrun ht
    exact ⟨hpos, ⟨i, hf, hkind⟩, he.fault_frame hrun ht⟩

theorem mayGrow_of_unbounded (h : s.realisation.maxTapeCells = none) (n : Nat) : s.mayGrow n = true := by
  simp [mayGrow_eq_true_iff, h]

theorem mayPush_of_unbounded (h : s.realisation.maxLoopDepth = none) : s.mayPush = true := by
  simp [mayPush_eq_true_iff, h]

/-- The step of a Running engine that fetches `i` ends as `i` does. -/
theorem effect_of_fetch (hf : s.fetch = some i) (hs : step s = .next t) : Effect s i t := by
  obtain ⟨hrun, -⟩ := step_next hs
  exact exec_effect (step_of_fetch hrun hf ▸ hs)

/-- Settles O34: without bounds the four causes are left, and each of them leaves its operation no other ending. -/
theorem engineFaultsExactlyWhereTheSpecSays : Obligations.EngineFaultsExactlyWhereTheSpecSays := by
  intro s t f ⟨htape, hloop⟩ hrun hs
  obtain ⟨-, ⟨hf, rfl⟩ | ⟨i, hf, he⟩⟩ := step_effect hs
  · simp [hf, hrun]
  · have hcause : t.status = .faulted f ↔ FaultCause s i f := by
      refine ⟨fun ht => ?_, he.status_of_cause⟩
      obtain h | ⟨-, ⟨n, hg⟩, -⟩ | ⟨-, hp, -⟩ := he.fault_cases hrun ht
      · exact h
      · cases (mayGrow_of_unbounded htape n).symm.trans hg
      · cases (mayPush_of_unbounded hloop).symm.trans hp
    simpa only [hf, Option.some.injEq, FaultCause] using hcause

/-! ## The ports (R63, R173, R174) -/

/-- Only an answered Normal-mode Read or Write writes the ports: it takes one answer, and at most one byte moves. -/
theorem Effect.ports_cases (he : Effect s i t) :
    t.ports = s.ports ∨
    (i = .read ∧ s.mode = .normal ∧ ∃ a rest, s.ports.inAnswers = a :: rest ∧
      ((∃ b, a = .byte b ∧ t.ports = { s.ports with inAnswers := rest, inStream := s.ports.inStream ++ [b] }) ∨
       ((∀ b, a ≠ .byte b) ∧ t.ports = { s.ports with inAnswers := rest }))) ∨
    (i = .write ∧ s.mode = .normal ∧ ∃ a rest c, s.ports.outAnswers = a :: rest ∧ s.cell? = some c ∧
      ((a = .ok ∧ t.ports = { s.ports with outAnswers := rest, outStream := s.ports.outStream ++ [c] }) ∨
       (a = .error ∧ t.ports = { s.ports with outAnswers := rest }))) := by
  cases he
  case readByte b rest hm hc hi => exact .inr (.inl ⟨rfl, hm, _, rest, hi, .inl ⟨b, rfl, rfl⟩⟩)
  case readExhausted rest hm hc hi =>
    exact .inr (.inl ⟨rfl, hm, _, rest, hi, .inr ⟨nofun, by rw [State.tookInput_nil]; rfl⟩⟩)
  case readError rest hm hc hi =>
    exact .inr (.inl ⟨rfl, hm, _, rest, hi, .inr ⟨nofun, by rw [State.tookInput_nil]; rfl⟩⟩)
  case wrote c rest hm hc ho => exact .inr (.inr ⟨rfl, hm, _, rest, c, ho, hc, .inl ⟨rfl, rfl⟩⟩)
  case writeError c rest hm hc ho =>
    exact .inr (.inr ⟨rfl, hm, _, rest, c, ho, hc, .inr ⟨rfl, by rw [State.tookOutput_nil]; rfl⟩⟩)
  all_goals exact .inl rfl

/-- Settles O35: the end check makes no transaction, and an operation makes at most one. -/
theorem streamsMoveOneByteInOrder : Obligations.StreamsMoveOneByteInOrder := by
  intro s t hs
  obtain ⟨-, ⟨-, rfl⟩ | ⟨i, hf, he⟩⟩ := step_effect hs
  · exact .inl rfl
  · simpa only [hf, Option.some.injEq] using he.ports_cases

end Sys2Proof.Machine
end

section
/-! Proofs about the engine invariant (10_state.md R36 to R44): it holds at reset, every step keeps each of its parts, and what
follows from it. -/

namespace Sys2Proof.Machine

variable {s t : State} {i : Instr}

/-! ## The tape and the pointer (R37, R38) -/

theorem Effect.tapeInv (he : Effect s i t) (h : TapeInv s) : TapeInv t := by
  cases he
  case added | subtracted => exact tapeInv_setCell h _
  case readByte rest hm hc hi => exact tapeInv_setCell (s := s.tookInput rest _) h _
  case movedRight => exact tapeInv_shiftRight h 1
  case movedLeft => exact tapeInv_shiftLeft h 1
  all_goals exact h

/-- What a LoopEnd pops lies before it. -/
theorem StackInv.popped_lt {st : List Nat} {p : Nat} (h : StackInv s) (hl : s.lstack = st ++ [p]) : p < s.ip :=
  (h.2 p (hl ▸ List.mem_concat_self)).1

theorem Effect.ip_le_succ (he : Effect s i t) (h : StackInv s) : t.ip ≤ s.ip + 1 := by
  cases he
  case jumpedBack hm hl hc h0 => exact Nat.le_succ_of_le (Nat.le_of_lt (StackInv.popped_lt h hl))
  case noRoomRight | noRoomLeft | readWaits | readExhausted | readError | writeWaits | writeError | noRoomPush | unmatched =>
    exact Nat.le_succ _
  all_goals exact Nat.le_refl _

theorem Effect.pointerInv (he : Effect s i t) (hf : s.fetch = some i) (h : StackInv s) : PointerInv t := by
  rw [PointerInv, he.prog_eq]
  exact Nat.le_trans (he.ip_le_succ h) (fetch_lt hf)

/-! ## The stack (R39) -/

/-- The stack invariant is about the stack, the program and ip alone, and holds up to a later ip. -/
theorem StackInv.mono (h : StackInv s) (hl : t.lstack = s.lstack) (hp : t.prog = s.prog) (hip : s.ip ≤ t.ip) :
    StackInv t := by
  rw [StackInv, hl, hp]
  exact ⟨h.1, fun e he => ⟨Nat.lt_of_lt_of_le (h.2 e he).1 hip, (h.2 e he).2⟩⟩

/-- LoopStart pushes a position above all entries. -/
theorem StackInv.push (h : StackInv s) (hf : s.fetch = some .loopStart) : StackInv s.pushLoop.advance := by
  refine ⟨List.pairwise_append.2 ⟨h.1, List.pairwise_singleton _ _, fun e he q hq => ?_⟩, fun e he => ?_⟩
  · exact List.mem_singleton.1 hq ▸ (h.2 e he).1
  · obtain he | he := List.mem_append.1 he
    · exact ⟨Nat.lt_succ_of_lt (h.2 e he).1, (h.2 e he).2⟩
    · rw [List.mem_singleton.1 he]
      exact ⟨Nat.lt_succ_self _, hf⟩

/-- What is left below a popped entry is legal even at the popped position, to which a jump goes. -/
theorem StackInv.pop {st : List Nat} {p : Nat} (h : StackInv s) (hl : s.lstack = st ++ [p]) :
    StackInv { s with lstack := st, ip := p } := by
  obtain ⟨hsorted, hentries⟩ := h
  rw [hl] at hsorted hentries
  obtain ⟨hst, -, hbelow⟩ := List.pairwise_append.1 hsorted
  exact ⟨hst, fun e he => ⟨hbelow e he p (List.mem_singleton_self p), (hentries e (List.mem_append_left _ he)).2⟩⟩

theorem StackInv.pop_advance {st : List Nat} {p : Nat} (h : StackInv s) (hl : s.lstack = st ++ [p]) :
    StackInv (State.advance { s with lstack := st }) := by
  have hp : p ≤ s.ip + 1 := Nat.le_succ_of_le (Nat.le_of_lt (StackInv.popped_lt h hl))
  exact StackInv.mono (StackInv.pop h hl) rfl rfl hp

theorem Effect.stackInv (he : Effect s i t) (hf : s.fetch = some i) (h : StackInv s) : StackInv t := by
  cases he
  case pushedSkipping | entered | skipBegan => exact StackInv.push h hf
  case jumpedBack hm hl hc h0 => exact StackInv.pop h hl
  case skipEnded hm hl => exact StackInv.pop_advance h hl
  case skipWentOn hm hl hp => exact StackInv.pop_advance h hl
  case exited hm hl hc => exact StackInv.pop_advance h hl
  case noRoomRight | noRoomLeft | readWaits | readExhausted | readError | writeWaits | writeError | noRoomPush | unmatched =>
    exact h
  all_goals exact StackInv.mono h rfl rfl (Nat.le_succ _)

/-! ## The skip (R40) -/

/-- In Normal mode there is no origin. -/
theorem skipInv_of_normal (hm : s.mode = .normal) : SkipInv s := by
  rw [SkipInv, hm]; nofun

/-- The skip invariant is about the mode, the stack and the cell under the head alone. -/
theorem SkipInv.mono (h : SkipInv s) (hm : t.mode = s.mode) (hl : s.lstack ⊆ t.lstack) (hc : t.cell? = s.cell?) :
    SkipInv t := by
  rw [SkipInv, hm, hc]
  exact fun o ho => ⟨hl (h o ho).1, (h o ho).2⟩

/-- A pop of another entry than the origin leaves the origin on the stack. -/
theorem SkipInv.pop {st : List Nat} {p o : Nat} (h : SkipInv s) (hm : s.mode = .skipping o) (hl : s.lstack = st ++ [p])
    (hp : p ≠ o) : SkipInv (State.advance { s with lstack := st }) := by
  intro q hq
  obtain ⟨hmem, hcell⟩ := h q hq
  obtain rfl : o = q := by
    have hq' : q ∈ s.mode.origin? := hq
    rw [hm] at hq'
    exact Option.some.inj hq'
  obtain hmem | hmem := List.mem_append.1 (hl ▸ hmem)
  · exact ⟨hmem, hcell⟩
  · exact absurd (List.mem_singleton.1 hmem).symm hp

theorem Effect.skipInv (he : Effect s i t) (h : SkipInv s) : SkipInv t := by
  cases he
  case skipBegan hp hm hc =>
    intro o ho
    cases ho
    exact ⟨List.mem_concat_self, hc⟩
  case pushedSkipping => exact h.mono rfl (List.subset_append_left _ _) rfl
  case skipEnded => exact skipInv_of_normal rfl
  case skipWentOn hm hl hp => exact SkipInv.pop h hm hl hp
  case skipped | noRoomPush | unmatched => exact h
  all_goals exact skipInv_of_normal ‹s.mode = .normal›

/-! ## The status (R161, R165, R167) -/

theorem statusInv_of_running (hrun : s.status = .running) : StatusInv s := by
  rw [StatusInv, hrun]; nofun

theorem Effect.statusInv (he : Effect s i t) (hf : s.fetch = some i) (hrun : s.status = .running) : StatusInv t := by
  cases ht : t.status with
  | running => exact statusInv_of_running ht
  | faulted f =>
    obtain ⟨hpos, hkind⟩ := he.fault_named hrun ht
    obtain ⟨hframe, -, -⟩ := he.fault_frame hrun ht
    intro g hg
    rw [ht] at hg
    obtain rfl := Option.some.inj hg
    rw [hframe]
    exact ⟨hpos, i, hf, hkind⟩

/-! ## The wait (R173, R174, R178) -/

/-- Before any ending but that of a Normal-mode Read or Write there is nothing to wait in. -/
theorem WaitInv.eq_none (h : WaitInv s) (hf : s.fetch = some i)
    (hi : ¬ (s.mode = .normal ∧ (i = .read ∨ i = .write))) : s.wait = none := by
  refine Option.eq_none_iff_forall_ne_some.2 fun r hr => hi ?_
  obtain ⟨-, hm, ⟨-, hread⟩ | ⟨-, -, -, hwrite⟩⟩ := h r hr
  · exact ⟨hm, .inl (Option.some.inj (hf.symm.trans hread))⟩
  · exact ⟨hm, .inr (Option.some.inj (hf.symm.trans hwrite))⟩

/-- After an operation the engine waits only where that operation has just asked and found no answer. -/
theorem Effect.wait_cases (he : Effect s i t) (hf : s.fetch = some i) (h : WaitInv s) :
    t.wait = none ∨
    (i = .read ∧ s.mode = .normal ∧ s.ports.inAnswers = [] ∧ t = s.await .input) ∨
    (i = .write ∧ s.mode = .normal ∧ s.ports.outAnswers = [] ∧ ∃ c, s.cell? = some c ∧ t = s.await (.output c)) := by
  have hnone := WaitInv.eq_none h hf
  cases he
  case readWaits hm hc hi => exact .inr (.inl ⟨rfl, hm, hi, rfl⟩)
  case writeWaits c hm hc ho => exact .inr (.inr ⟨rfl, hm, ho, c, hc, rfl⟩)
  case readByte | readExhausted | readError | wrote | writeError => exact .inl rfl
  case skipped o hm hs he' =>
    refine .inl (hnone fun ⟨hm', _⟩ => ?_)
    cases hm.symm.trans hm'
  all_goals exact .inl (hnone (by simp))

theorem waitInv_of_wait_none (hw : s.wait = none) : WaitInv s := by
  rw [WaitInv, hw]; nofun

theorem Effect.waitInv (he : Effect s i t) (hf : s.fetch = some i) (hrun : s.status = .running) (h : WaitInv s) :
    WaitInv t := by
  obtain hw | ⟨rfl, hm, -, rfl⟩ | ⟨rfl, hm, -, c, hc, rfl⟩ := he.wait_cases hf h
  · exact waitInv_of_wait_none hw
  · intro r hr
    obtain rfl := Option.some.inj hr
    exact ⟨hrun, hm, .inl ⟨rfl, hf⟩⟩
  · intro r hr
    obtain rfl := Option.some.inj hr
    exact ⟨hrun, hm, .inr ⟨c, hc, rfl, hf⟩⟩

/-! ## The bounds (R182) -/

theorem Effect.realisation_eq (he : Effect s i t) : t.realisation = s.realisation := by
  cases he <;> rfl

/-- A tape that may grow stays within its bound. -/
theorem len_add_le_of_mayGrow {n m : Nat} (h : CapacityInv s) (hg : s.mayGrow n = true)
    (hb : m ∈ s.realisation.maxTapeCells) : s.tape.len + n ≤ m := by
  obtain rfl | hroom := (mayGrow_eq_true_iff s n).1 hg
  · exact h.1 m hb
  · exact hroom m hb

theorem Effect.len_le (he : Effect s i t) (h : CapacityInv s) {m : Nat} (hb : m ∈ s.realisation.maxTapeCells) :
    t.tape.len ≤ m := by
  cases he
  case movedRight hm hg => exact len_add_le_of_mayGrow h hg hb
  case movedLeft hm hg => exact len_add_le_of_mayGrow h hg hb
  all_goals exact h.1 m hb

/-- A LoopStart pushes where there is room, and a LoopEnd makes the stack shorter. -/
theorem Effect.depth_le (he : Effect s i t) (h : CapacityInv s) {m : Nat} (hb : m ∈ s.realisation.maxLoopDepth) :
    t.lstack.length ≤ m := by
  have pushed : s.mayPush = true → (s.lstack ++ [s.ip]).length ≤ m := fun hp => by
    rw [List.length_append]
    exact (mayPush_eq_true_iff s).1 hp m hb
  have popped : ∀ {st p}, s.lstack = st ++ [p] → st.length ≤ m := fun {st p} hl =>
    Nat.le_trans (hl ▸ (List.sublist_append_left st [p]).length_le) (h.2 m hb)
  cases he
  case pushedSkipping hp hm => exact pushed hp
  case entered hp hm hc h0 => exact pushed hp
  case skipBegan hp hm hc => exact pushed hp
  case skipEnded hm hl => exact popped hl
  case skipWentOn hm hl hp => exact popped hl
  case jumpedBack hm hl hc h0 => exact popped hl
  case exited hm hl hc => exact popped hl
  all_goals exact h.2 m hb

theorem Effect.capacityInv (he : Effect s i t) (h : CapacityInv s) : CapacityInv t := by
  rw [CapacityInv, he.realisation_eq]
  exact ⟨fun m => he.len_le h, fun m => he.depth_le h⟩

/-! ## The whole invariant (R36) -/

theorem EngineInv.of_effect (h : EngineInv s) (hrun : s.status = .running) (hf : s.fetch = some i) (he : Effect s i t) :
    EngineInv t where
  tape := he.tapeInv h.tape
  pointer := he.pointerInv hf h.stack
  stack := he.stackInv hf h.stack
  skip := he.skipInv h.skip
  status := he.statusInv hf hrun
  wait := he.waitInv hf hrun h.wait
  capacity := he.capacityInv h.capacity

/-- Settles O37: the end check keeps the state, and every ending of the fetched operation keeps each part of the invariant. -/
theorem stepKeepsTheEngineInvariant : Obligations.StepKeepsTheEngineInvariant := by
  intro s t h hs
  obtain ⟨hrun, ⟨-, rfl⟩ | ⟨i, hf, he⟩⟩ := step_effect hs
  · exact h
  · exact h.of_effect hrun hf he

/-- A realisation that passes its checks has room for one cell. -/
theorem Realisation.one_le_maxTapeCells {r : Realisation} (h : r.tapeBoundOk = true) : ∀ m ∈ r.maxTapeCells, 1 ≤ m := by
  intro m hm
  unfold Realisation.tapeBoundOk at h
  rw [Option.mem_def.1 hm] at h
  exact of_decide_eq_true h

theorem Realisation.wf_iff {r : Realisation} {p : Program} :
    r.wf p = true ↔ r.tapeBoundOk = true ∧ r.headWidthOk = true ∧ Program.fits r p = true := by
  simp only [Realisation.wf, Bool.and_eq_true, and_assoc]

/-- Settles O15: at reset the one cell needs a well-formed tape bound, and every other part is about nothing yet. -/
theorem invariantsHoldAtReset : Obligations.InvariantsHoldAtReset := by
  intro r p hr
  obtain ⟨hbound, -, -⟩ := Realisation.wf_iff.1 hr
  refine ⟨?_, rfl⟩
  exact {
    tape := (by decide : TapeInv State.reset)
    pointer := Nat.zero_le _
    stack := ⟨List.Pairwise.nil, nofun⟩
    skip := nofun
    status := nofun
    wait := nofun
    capacity := ⟨Realisation.one_le_maxTapeCells hbound, fun m _ => Nat.zero_le m⟩ }

/-! ## No access is out of range (R42) -/

/-- With a cell under the head every operation has a next state: each body was said to end above, one way per mode. -/
theorem exec_next_of_cell {c : Byte} (hc : s.cell? = some c) (i : Instr) : ∃ t, exec i s = .next t := by
  cases hm : s.mode with
  | skipping o =>
    obtain ⟨t, ht, -⟩ := skippingSuppressesEffects s o i hm
    exact ⟨t, ht⟩
  | normal =>
    cases i with
    | add => exact ⟨_, exec_add_normal hm hc⟩
    | subtract => exact ⟨_, exec_subtract_normal hm hc⟩
    | read =>
      match hi : s.ports.inAnswers with
      | [] => exact ⟨_, exec_read_waits hm hc hi⟩
      | .byte b :: rest => exact ⟨_, exec_read_byte hm hc hi⟩
      | .exhausted :: rest => exact ⟨_, exec_read_exhausted hm hc hi⟩
      | .error :: rest => exact ⟨_, exec_read_error hm hc hi⟩
    | write =>
      match ho : s.ports.outAnswers with
      | [] => exact ⟨_, exec_write_waits hm hc ho⟩
      | .ok :: rest => exact ⟨_, exec_write_ok hm hc ho⟩
      | .error :: rest => exact ⟨_, exec_write_error hm hc ho⟩
    | left =>
      cases hg : s.mayGrow (s.growLeft 1) with
      | true => exact ⟨_, exec_left_normal hm hg⟩
      | false => exact ⟨_, exec_left_noRoom hm hg⟩
    | right =>
      cases hg : s.mayGrow (s.growRight 1) with
      | true => exact ⟨_, exec_right_normal hm hg⟩
      | false => exact ⟨_, exec_right_noRoom hm hg⟩
    | loopStart =>
      cases hp : s.mayPush with
      | true => exact ⟨_, exec_loopStart_normal hp hm hc⟩
      | false => exact ⟨_, exec_loopStart_noRoom hp⟩
    | loopEnd =>
      obtain hl | ⟨st, p, hl⟩ := List.eq_nil_or_concat' s.lstack
      · exact ⟨_, exec_loopEnd_unmatched hl⟩
      · exact ⟨_, exec_loopEnd_normal hm hl hc⟩

/-- Settles O39: a legal tape has the cell that an operation may need, and the end check needs none. -/
theorem runningEngineNeverStops : Obligations.RunningEngineNeverStops := by
  intro s h hrun
  cases hf : s.fetch with
  | none => exact ⟨s, step_of_fetch_none hrun hf⟩
  | some i =>
    rw [step_of_fetch hrun hf]
    exact exec_next_of_cell (cell?_of_tapeInv h.tape) i

/-! ## The stack in a skip (R41) -/

theorem EngineInv.lstack_ne_nil {o : Nat} (h : EngineInv s) (hm : s.mode = .skipping o) : s.lstack ≠ [] :=
  List.ne_nil_of_mem (h.skip o (by rw [hm]; rfl)).1

/-- Settles O40: the origin is on the stack, so a LoopEnd finds something to pop. -/
theorem skippingNeverFindsTheStackEmpty : Obligations.SkippingNeverFindsTheStackEmpty := by
  refine fun s o h hm => ⟨h.lstack_ne_nil hm, fun t f hs ht hkind => ?_⟩
  obtain ⟨hrun, ⟨-, rfl⟩ | ⟨i, hf, he⟩⟩ := step_effect hs
  · cases hrun.symm.trans ht
  · obtain (⟨-, hl, -⟩ | ⟨-, -, -, rfl⟩ | ⟨-, -, -, rfl⟩ | ⟨-, -, -, rfl⟩) | ⟨-, -, rfl⟩ | ⟨-, -, rfl⟩ :=
      he.fault_cases hrun ht
    · exact h.lstack_ne_nil hm hl
    all_goals cases hkind

/-! ## The depth of the stack (R44) -/

/-- Rising positions of LoopStarts, all before `k`, are at most as many as the LoopStarts before `k`. -/
theorem length_le_loopStartCount_take {p : Program} {l : List Nat} (hsorted : l.Pairwise (· < ·))
    (hstart : ∀ e ∈ l, p[e]? = some .loopStart) {k : Nat} (hk : ∀ e ∈ l, e < k) :
    l.length ≤ loopStartCount (p.take k) := by
  induction l using List.reverseRecOn generalizing k with
  | nil => exact Nat.zero_le _
  | append_singleton l e ih =>
    obtain ⟨hl, -, hbelow⟩ := List.pairwise_append.1 hsorted
    have he : p[e]? = some .loopStart := hstart e List.mem_concat_self
    have hprefix : p.take (e + 1) <+: p.take k := List.take_prefix_take_left (hk e List.mem_concat_self)
    calc (l ++ [e]).length
        = l.length + 1 := List.length_append
      _ ≤ loopStartCount (p.take e) + 1 := Nat.succ_le_succ
          (ih hl (fun q hq => hstart q (List.mem_append_left _ hq)) fun q hq => hbelow q hq e (List.mem_singleton_self e))
      _ = loopStartCount (p.take (e + 1)) := by
          rw [List.take_add_one, he, loopStartCount, loopStartCount, List.countP_append]; rfl
      _ ≤ loopStartCount (p.take k) := hprefix.sublist.countP_le

/-- The stack of a legal state is such a list. -/
theorem StackInv.depth_le (h : StackInv s) : s.lstack.length ≤ loopStartCount s.prog :=
  Nat.le_trans (length_le_loopStartCount_take h.1 (fun e he => (h.2 e he).2) fun e he => (h.2 e he).1)
    (List.take_sublist _ _).countP_le

/-- Only a LoopStart without room overflows the stack. -/
theorem Effect.noRoom_of_overflow {f : FaultRecord} (he : Effect s i t) (hrun : s.status = .running)
    (ht : t.status = .faulted f) (hkind : f.kind = .loopStackOverflow) : i = .loopStart ∧ s.mayPush = false := by
  obtain hcause | ⟨-, -, rfl⟩ | ⟨hi, hp, -⟩ := he.fault_cases hrun ht
  · obtain ⟨-, -, rfl⟩ | ⟨-, -, -, rfl⟩ | ⟨-, -, -, rfl⟩ | ⟨-, -, -, rfl⟩ := hcause <;> cases hkind
  · cases hkind
  · exact ⟨hi, hp⟩

/-- Settles O41: the stack, and the stack with the entry that a LoopStart would push, are rising positions of LoopStarts. -/
theorem loopDepthIsBoundedByTheProgram : Obligations.LoopDepthIsBoundedByTheProgram := by
  refine fun s h => ⟨StackInv.depth_le h.stack, fun hroom hrun t f hs ht hkind => ?_⟩
  obtain ⟨-, ⟨-, rfl⟩ | ⟨i, hf, he⟩⟩ := step_effect hs
  · cases hrun.symm.trans ht
  · obtain ⟨rfl, hp⟩ := he.noRoom_of_overflow hrun ht hkind
    have hpushed : (s.lstack ++ [s.ip]).length ≤ loopStartCount s.prog := StackInv.depth_le (StackInv.push h.stack hf)
    rw [List.length_append] at hpushed
    exact Bool.eq_false_iff.1 hp ((mayPush_eq_true_iff s).2 fun m hm => Nat.le_trans hpushed (hroom m hm))

/-! ## The widths (R9, D7) -/

theorem Program.lt_of_fits {r : Realisation} {p : Program} (h : Program.fits r p = true) :
    ∀ w ∈ r.ipWidth, p.length < 2 ^ w := by
  intro w hw
  unfold Program.fits at h
  rw [Option.mem_def.1 hw] at h
  exact of_decide_eq_true h

/-- A finite head has a finite tape, all of whose indices it holds. -/
theorem Realisation.maxTapeCells_le_of_headWidthOk {r : Realisation} (h : r.headWidthOk = true) :
    ∀ w ∈ r.headWidth, ∃ m ∈ r.maxTapeCells, m ≤ 2 ^ w := by
  intro w hw
  unfold Realisation.headWidthOk at h
  rw [Option.mem_def.1 hw] at h
  cases hm : r.maxTapeCells with
  | none => rw [hm] at h; cases h
  | some m => rw [hm] at h; exact ⟨m, rfl, of_decide_eq_true h⟩

/-- Settles O42: ip is at most N, an entry is below ip, and the head is below the tape's length, each within its bound. -/
theorem pointersFitTheirWidths : Obligations.PointersFitTheirWidths := by
  intro s h hwf
  obtain ⟨-, hhead, hfits⟩ := Realisation.wf_iff.1 hwf
  refine ⟨fun w hw => ?_, fun w hw => ?_⟩
  · have hip : s.ip < 2 ^ w := Nat.lt_of_le_of_lt h.pointer (Program.lt_of_fits hfits w hw)
    exact ⟨hip, fun e he => Nat.lt_trans (h.stack.2 e he).1 hip⟩
  · obtain ⟨m, hm, hle⟩ := Realisation.maxTapeCells_le_of_headWidthOk hhead w hw
    exact Nat.lt_of_lt_of_le h.tape.2 (Nat.le_trans (h.capacity.1 m hm) hle)

end Sys2Proof.Machine
end

section
/-! Proofs about brackets (40_execution_cycle.md R105): the loop stack is what the text leaves open, so a backward jump goes to
the structural match, and a skip ends behind it. -/

namespace Sys2Proof.Machine

variable {s t : State} {i : Instr}

/-! ## The loop stack and the text (R105) -/

/-- What the text leaves open behind the next operation, while the loop stack is what it leaves open before it. -/
theorem BracketInv.openBefore_succ (h : BracketInv s) (hf : s.fetch = some i) :
    openBefore s.prog (s.ip + 1) = openFrom s.ip s.lstack [i] := by
  rw [Machine.openBefore_succ hf, h, Option.bind_some]

theorem BracketInv.openBefore_succ_plain (h : BracketInv s) (hf : s.fetch = some i) (hs : i ≠ .loopStart)
    (he : i ≠ .loopEnd) : openBefore s.prog (s.ip + 1) = some s.lstack := by
  rw [BracketInv.openBefore_succ h hf]
  exact openFrom_balanced (.plain hs he .nil) _ _

theorem BracketInv.openBefore_succ_loopEnd {st : List Nat} {p : Nat} (h : BracketInv s) (hf : s.fetch = some .loopEnd)
    (hl : s.lstack = st ++ [p]) : openBefore s.prog (s.ip + 1) = some st := by
  rw [BracketInv.openBefore_succ h hf, hl]
  simp [openFrom]

/-- The entry that a LoopEnd pops lies above what the text leaves open before the entry's LoopStart. -/
theorem BracketInv.openBefore_popped {st : List Nat} {p : Nat} (h : BracketInv s) (hf : s.fetch = some .loopEnd)
    (hl : s.lstack = st ++ [p]) : openBefore s.prog p = some st :=
  (openBefore_entry (Nat.le_of_lt (fetch_lt hf)) h hl).1

theorem Effect.bracketInv (he : Effect s i t) (hf : s.fetch = some i) (h : BracketInv s) : BracketInv t := by
  cases he
  case pushedSkipping | entered | skipBegan => exact BracketInv.openBefore_succ h hf
  case skipEnded hm hl => exact BracketInv.openBefore_succ_loopEnd (s := s) h hf hl
  case skipWentOn hm hl hp => exact BracketInv.openBefore_succ_loopEnd (s := s) h hf hl
  case exited hm hl hc => exact BracketInv.openBefore_succ_loopEnd (s := s) h hf hl
  case jumpedBack hm hl hc h0 => exact BracketInv.openBefore_popped (s := s) h hf hl
  case noRoomRight | noRoomLeft | readWaits | readExhausted | readError | writeWaits | writeError | noRoomPush | unmatched =>
    exact h
  case skipped o hm hs he => exact BracketInv.openBefore_succ_plain h hf hs he
  all_goals exact BracketInv.openBefore_succ_plain h hf nofun nofun

/-- Settles O38: every ending moves ip and the stack as parenthesis matching moves over the text. -/
theorem stepKeepsTheBracketInvariant : Obligations.StepKeepsTheBracketInvariant := by
  intro s t h hs
  obtain ⟨-, ⟨-, rfl⟩ | ⟨i, hf, he⟩⟩ := step_effect hs
  · exact h
  · exact he.bracketInv hf h

/-! ## The backward jump (R43, R105) -/

theorem openBefore_append_length (p q : Program) : openBefore (p ++ q) p.length = openFrom 0 [] p := by
  rw [openBefore, List.take_left]

/-- Behind a LoopStart and a balanced body the text leaves open what it did before them, and that LoopStart on top. -/
theorem openFrom_loopStart_balanced {body : Program} (hb : Balanced body) (n : Nat) (st : List Nat) :
    openFrom n st (.loopStart :: body) = some (st ++ [n]) :=
  openFrom_balanced hb (n + 1) (st ++ [n])

/-- At the LoopEnd behind a LoopStart and a balanced body that LoopStart is the top entry. -/
theorem BracketInv.lstack_eq_of_balanced {before body after : Program} (hb : Balanced body) (h : BracketInv s)
    (hprog : s.prog = before ++ .loopStart :: (body ++ .loopEnd :: after))
    (hip : s.ip = before.length + 1 + body.length) : ∃ st, s.lstack = st ++ [before.length] := by
  have hopen : openFrom 0 [] (before ++ .loopStart :: body) = some s.lstack := by
    have hlen : s.ip = (before ++ .loopStart :: body).length := by rw [hip, List.length_append, List.length_cons]; omega
    rw [← h, hprog, hlen, ← openBefore_append_length _ (.loopEnd :: after), List.append_assoc, List.cons_append]
  rw [openFrom_append] at hopen
  obtain ⟨st, -, hst⟩ := Option.bind_eq_some_iff.1 hopen
  rw [openFrom_loopStart_balanced hb, Nat.zero_add] at hst
  exact ⟨st, (Option.some.inj hst).symm⟩

/-- Settles O43: the top entry is the structurally matching LoopStart, and a LoopEnd with a nonzero guard jumps to the top. -/
theorem backwardJumpGoesToTheMatchingLoopStart : Obligations.BackwardJumpGoesToTheMatchingLoopStart := by
  intro s before body after b hb hprog hip hrun hm hbr hc h0
  have hf : s.fetch = some .loopEnd := by
    rw [State.fetch, hprog, hip, List.getElem?_append_right (by omega), show before.length + 1 + body.length - before.length
      = body.length + 1 by omega, List.getElem?_cons_succ, List.getElem?_append_right (Nat.le_refl _), Nat.sub_self]
    rfl
  obtain ⟨st, hl⟩ := BracketInv.lstack_eq_of_balanced hb hbr hprog hip
  have hstep : step s = .next { s with lstack := st, ip := before.length } := by
    rw [step_of_fetch hrun hf, exec_loopEnd_normal hm hl hc, if_neg h0]
  refine ⟨_, hstep, rfl, ?_, ?_, stepKeepsTheBracketInvariant s _ hbr hstep⟩
  · rw [State.fetch, hprog, List.getElem?_append_right (Nat.le_refl _), Nat.sub_self]
    rfl
  · rw [hl, List.dropLast_concat]

/-! ## The text at ip -/

/-- The operations from ip on begin with `p`. -/
def TextAt (s : State) (p : Program) : Prop := p <+: s.prog.drop s.ip

theorem TextAt.fetch {p : Program} (h : TextAt s (i :: p)) : s.fetch = some i := by
  obtain ⟨after, h⟩ := h
  rw [State.fetch, ← Nat.add_zero s.ip, ← List.getElem?_drop, ← h]
  rfl

/-- Further on in the text: the state is another one, but with the same program. -/
theorem TextAt.drop {p q : Program} (h : TextAt s (p ++ q)) (hprog : t.prog = s.prog) (hip : t.ip = s.ip + p.length) :
    TextAt t q := by
  obtain ⟨after, h⟩ := h
  refine ⟨after, ?_⟩
  rw [hprog, hip, ← List.drop_drop, ← h, List.append_assoc, List.drop_left]

theorem TextAt.left {p q : Program} (h : TextAt s (p ++ q)) : TextAt s p :=
  (List.prefix_append p q).trans h

theorem TextAt.tail {p : Program} (h : TextAt s (i :: p)) (hprog : t.prog = s.prog) (hip : t.ip = s.ip + 1) :
    TextAt t p :=
  TextAt.drop (p := [i]) h hprog hip

/-! ## The skip (R105, R106, R202) -/

theorem stepTimes_succ_of_next (h : step s = .next t) (n : Nat) : stepTimes (n + 1) s = stepTimes n t := by
  simp only [stepTimes, h]

theorem stepTimes_one_of_next (h : step s = .next t) : stepTimes 1 s = .next t := stepTimes_succ_of_next h 0

/-- A Skipping engine whose origin lies before it passes over the text in one step per operation, changing ip alone. -/
def SkipsOver (body : Program) : Prop :=
  ∀ (s : State) (o : Nat), s.status = .running → s.mode = .skipping o → o < s.ip → s.realisation.maxLoopDepth = none →
    TextAt s body → stepTimes body.length s = .next { s with ip := s.ip + body.length }

theorem SkipsOver.nil : SkipsOver [] := fun _ _ _ _ _ _ _ => rfl

theorem SkipsOver.plain {rest : Program} (hs : i ≠ .loopStart) (he : i ≠ .loopEnd) (h : SkipsOver rest) :
    SkipsOver (i :: rest) := by
  intro s o hrun hm ho hdepth htext
  have hstep : step s = .next s.advance := by
    rw [step_of_fetch hrun htext.fetch, exec_plain_skipping hm hs he]
  rw [List.length_cons, stepTimes_succ_of_next hstep,
    h s.advance o hrun hm (Nat.lt_succ_of_lt ho) hdepth (htext.tail rfl rfl), State.advance_ip, Nat.add_assoc,
    Nat.add_comm 1]
  rfl

/-- Behind a pushed LoopStart, over its body and its LoopEnd: the entry is popped again, and the skip ends if it is the origin. -/
theorem SkipsOver.loopEnd {body rest : Program} (h : SkipsOver body) {st : List Nat} {p o : Nat}
    (hrun : s.status = .running) (hm : s.mode = .skipping o) (hl : s.lstack = st ++ [p]) (ho : o < s.ip)
    (hdepth : s.realisation.maxLoopDepth = none) (htext : TextAt s (body ++ .loopEnd :: rest)) :
    stepTimes (body.length + 1) s =
      .next { s with
        lstack := st
        mode := if p = o then .normal else .skipping o
        ip := s.ip + (body.length + 1) } := by
  have hend : TextAt { s with ip := s.ip + body.length } (.loopEnd :: rest) := htext.drop rfl rfl
  rw [stepTimes_add (h s o hrun hm ho hdepth htext.left)]
  refine stepTimes_one_of_next ?_
  rw [step_of_fetch (s := { s with ip := s.ip + body.length }) hrun hend.fetch]
  exact exec_loopEnd_skipping (s := { s with ip := s.ip + body.length }) hm hl

/-- A nested loop's entry is above the origin, so its LoopEnd does not end the skip. -/
theorem SkipsOver.loop {body rest : Program} (hbody : SkipsOver body) (hrest : SkipsOver rest) :
    SkipsOver (.loopStart :: (body ++ .loopEnd :: rest)) := by
  intro s o hrun hm ho hdepth htext
  have hpush : step s = .next s.pushLoop.advance := by
    rw [step_of_fetch hrun htext.fetch, exec_loopStart_skipping (mayPush_of_unbounded hdepth) hm]
  have hclose : stepTimes (body.length + 1) s.pushLoop.advance =
      .next { s with ip := s.ip + 1 + (body.length + 1) } := by
    rw [hbody.loopEnd (s := s.pushLoop.advance) hrun hm rfl (Nat.lt_succ_of_lt ho) hdepth (htext.tail rfl rfl),
      if_neg (Nat.ne_of_gt ho), ← hm]
    rfl
  have hafter : TextAt { s with ip := s.ip + 1 + (body.length + 1) } rest :=
    TextAt.drop (s := s) (p := .loopStart :: (body ++ [.loopEnd])) (by simpa using htext) rfl
      (by simp only [List.length_cons, List.length_append, List.length_nil]; omega)
  have hlen : (Instr.loopStart :: (body ++ .loopEnd :: rest)).length = body.length + 1 + rest.length + 1 := by
    simp only [List.length_cons, List.length_append]; omega
  rw [hlen, stepTimes_succ_of_next hpush, stepTimes_add hclose,
    hrest { s with ip := s.ip + 1 + (body.length + 1) } o hrun hm (by show o < s.ip + 1 + (body.length + 1); omega) hdepth hafter]
  have hip : s.ip + 1 + (body.length + 1) + rest.length = s.ip + (body.length + 1 + rest.length + 1) := by omega
  rw [hip]

theorem skipsOver_of_balanced {body : Program} (h : Balanced body) : SkipsOver body := by
  induction h with
  | nil => exact SkipsOver.nil
  | plain hs he _ ih => exact SkipsOver.plain hs he ih
  | loop _ _ ihb ihr => exact SkipsOver.loop ihb ihr

/-- Settles O44: the LoopStart pushes its position and makes it the origin, the body is skipped over, and the matching LoopEnd
pops the origin. -/
theorem skipEndsAtTheMatchingLoopEnd : Obligations.SkipEndsAtTheMatchingLoopEnd := by
  intro s before body after hb hprog hip hrun hm hc hdepth
  have htext : TextAt s (.loopStart :: (body ++ .loopEnd :: after)) := by
    rw [TextAt, hprog, hip, List.drop_left]
  have hpush : step s = .next { s with lstack := s.lstack ++ [s.ip], mode := .skipping s.ip, ip := s.ip + 1 } := by
    rw [step_of_fetch hrun htext.fetch, exec_loopStart_normal (mayPush_of_unbounded hdepth) hm hc, if_pos rfl]
    rfl
  have hskip := (skipsOver_of_balanced hb).loopEnd
    (s := { s with lstack := s.lstack ++ [s.ip], mode := .skipping s.ip, ip := s.ip + 1 })
    hrun rfl rfl (Nat.lt_succ_self _) hdepth (htext.tail rfl rfl)
  rw [if_pos rfl, ← hm] at hskip
  have hip : s.ip + 1 + (body.length + 1) = s.ip + (body.length + 2) := by omega
  rw [stepTimes_succ_of_next hpush, hskip, hip]

end Sys2Proof.Machine
end

section
/-! Proofs about moves in a row (20_memory.md R68): growing the tape and coming back adds zero cells and nothing else. -/

namespace Sys2Proof.Machine

variable {s t : State}

/-! ## Growths and shifts add up (R24, R122) -/

theorem Tape.append_append (t : Tape) (m n : Nat) : (t.append m).append n = t.append (m + n) := by
  rw [Tape.append, Tape.append_len, Nat.add_assoc]; rfl

theorem Tape.prepend_prepend (t : Tape) (m n : Nat) : (t.prepend m).prepend n = t.prepend (m + n) := by
  simp [Tape.prepend, Memory.shiftUp, Nat.add_assoc]

theorem shiftRight_shiftRight (s : State) (m n : Nat) :
    (s.shiftRight m).shiftRight n = s.shiftRight (m + n) := by
  have hgrow : s.growRight m + (s.shiftRight m).growRight n = s.growRight (m + n) := by
    simp only [State.growRight, State.shiftRight_head, State.shiftRight_tape, Tape.append_len]; omega
  rw [State.shiftRight, State.shiftRight_tape, Tape.append_append, hgrow, State.shiftRight_head, Nat.add_assoc]
  rfl

theorem shiftLeft_shiftLeft (s : State) (m n : Nat) : (s.shiftLeft m).shiftLeft n = s.shiftLeft (m + n) := by
  have hgrow : s.growLeft m + (s.shiftLeft m).growLeft n = s.growLeft (m + n) := by
    simp only [State.growLeft, State.shiftLeft_head]; omega
  have hhead : (s.shiftLeft m).head + (s.shiftLeft m).growLeft n - n = s.head + s.growLeft (m + n) - (m + n) := by
    simp only [State.growLeft, State.shiftLeft_head]; omega
  rw [State.shiftLeft, hhead, State.shiftLeft_tape, Tape.prepend_prepend, hgrow]
  rfl

theorem shiftRight_zero (h : s.head < s.tape.len) : s.shiftRight 0 = s := by
  rw [State.shiftRight, State.growRight, Nat.sub_eq_zero_of_le h, Tape.append_zero]; rfl

theorem shiftLeft_zero (s : State) : s.shiftLeft 0 = s := by
  rw [State.shiftLeft, State.growLeft, Nat.zero_sub, Tape.prepend_zero]; rfl

/-! ## `k` moves are one shift by `k` (R122) -/

theorem execTimes_right {k : Nat} (h : TapeInv s) (hm : s.mode = .normal) (hb : s.realisation.maxTapeCells = none) :
    execTimes .right k s = .next { s.shiftRight k with ip := s.ip + k } := by
  induction k generalizing s with
  | zero => rw [shiftRight_zero h.2]; rfl
  | succ k ih =>
    have hone : execTimes .right (k + 1) s = execTimes .right k (s.shiftRight 1).advance := by
      rw [execTimes, exec_right_normal hm (mayGrow_of_unbounded hb _)]
    have hshift : (s.shiftRight 1).advance.shiftRight k = (s.shiftRight (k + 1)).advance := by
      rw [Nat.add_comm k, ← shiftRight_shiftRight]; rfl
    rw [hone, ih (s := (s.shiftRight 1).advance) (tapeInv_shiftRight h 1) hm hb, hshift, State.advance_ip,
      State.shiftRight_ip, Nat.add_assoc, Nat.add_comm 1]
    rfl

theorem execTimes_left {k : Nat} (hm : s.mode = .normal) (hb : s.realisation.maxTapeCells = none) :
    execTimes .left k s = .next { s.shiftLeft k with ip := s.ip + k } := by
  induction k generalizing s with
  | zero => rw [shiftLeft_zero]; rfl
  | succ k ih =>
    have hone : execTimes .left (k + 1) s = execTimes .left k (s.shiftLeft 1).advance := by
      rw [execTimes, exec_left_normal hm (mayGrow_of_unbounded hb _)]
    have hshift : (s.shiftLeft 1).advance.shiftLeft k = (s.shiftLeft (k + 1)).advance := by
      rw [Nat.add_comm k, ← shiftLeft_shiftLeft]; rfl
    rw [hone, ih (s := (s.shiftLeft 1).advance) hm hb, hshift, State.advance_ip, State.shiftLeft_ip, Nat.add_assoc,
      Nat.add_comm 1]
    rfl

/-- Settles O46: the way out is one shift, which grows the tape as far as it must, and the way back is one that need not grow. -/
theorem tapeGrowthIsTransparent : Obligations.TapeGrowthIsTransparent := by
  intro k s h hm hb
  have hlt := h.2
  refine ⟨⟨_, _, execTimes_right h hm hb, execTimes_left (s := { s.shiftRight k with ip := s.ip + k }) hm hb, ?_, ?_⟩,
    ⟨_, _, execTimes_left hm hb,
      execTimes_right (s := { s.shiftLeft k with ip := s.ip + k }) (tapeInv_shiftLeft h k) hm hb, ?_, ?_⟩⟩
  · simp only [State.shiftLeft_head, State.growLeft, State.shiftRight_head]; omega
  · have hback : State.growLeft k { s.shiftRight k with ip := s.ip + k } = 0 := by
      simp only [State.growLeft, State.shiftRight_head]; omega
    rw [State.shiftLeft_tape, hback, Tape.prepend_zero]
    exact Tape.toList_append h.1 _
  · simp only [State.shiftRight_head, State.shiftLeft_head, State.growLeft]; omega
  · have hback : State.growRight k { s.shiftLeft k with ip := s.ip + k } = 0 := by
      simp only [State.growRight, State.shiftLeft_head, State.shiftLeft_tape, Tape.prepend_len, State.growLeft]; omega
    rw [State.shiftRight_tape, hback, Tape.append_zero]
    exact Tape.toList_prepend _ _

end Sys2Proof.Machine
end

section
/-! Proofs that compare the machine with the pseudocode (40_execution_cycle.md R99) over a tape of another form (10_state.md R21,
R25). What the form must keep is said once (`Represents`), the step is compared with the pseudocode over any such form
(`step_agrees`), and the comparisons with the sequence, with the total function and of two engines follow. -/

namespace Sys2Proof.Machine

variable {τ : Type} {T : TapeModel τ} {R : State → τ → Prop} {s t : State} {x : τ} {i : Instr}

/-! ## A tape of another form -/

/-- `R` relates the machine's tape and head to a tape of the form `T`: they read the same cell, and every tape operation of the
pseudocode keeps the relation. -/
structure Represents (T : TapeModel τ) (R : State → τ → Prop) : Prop where
  congr : ∀ {s t : State} {x : τ}, t.tape = s.tape → t.head = s.head → R s x → R t x
  cell : ∀ {s : State} {x : τ}, TapeInv s → R s x → s.cell? = some (T.cell x)
  setCell : ∀ {s : State} {x : τ}, TapeInv s → R s x → ∀ v, R (s.setCell v) (T.setCell v x)
  right : ∀ {s : State} {x : τ}, TapeInv s → R s x → R (s.shiftRight 1) (T.right x)
  left : ∀ {s : State} {x : τ}, TapeInv s → R s x → R (s.shiftLeft 1) (T.left x)

/-- The sequence of R21 with its head. -/
def IsSequence (s : State) (x : List Byte × Nat) : Prop := x = (s.tape.toList, s.head)

/-- The total function of R25 with its abstract head. -/
def IsFunction (s : State) (x : (Int → Byte) × Int) : Prop := ∀ d : Int, cellAt s d = x.1 (x.2 + d)

theorem shiftLeft_one_toList (s : State) :
    (s.shiftLeft 1).tape.toList = if s.head = 0 then 0x00#8 :: s.tape.toList else s.tape.toList := by
  split
  next hedge => exact shiftLeft_one_toList_edge hedge
  next hin => rw [shiftLeft_one_tape_inside hin]

theorem isSequence_represents : Represents sequenceTape IsSequence where
  congr ht hh hx := by rw [IsSequence, ht, hh]; exact hx
  cell {s x} h hx := by
    obtain rfl := hx
    have hc := cell?_of_tapeInv h
    rw [hc, ← (getElem?_toList_head s).trans hc]
    show s.tape.toList[s.head]? = some (s.tape.toList.getD s.head 0x00#8)
    rw [List.getD_eq_getElem?_getD, (getElem?_toList_head s).trans hc, Option.getD_some]
  setCell {s x} h hx v := by
    obtain rfl := hx
    exact Prod.ext (Tape.toList_write h.1 s.head v).symm rfl
  right {s x} h hx := by
    obtain rfl := hx
    exact Prod.ext (shiftRight_one_toList h).symm rfl
  left {s x} h hx := by
    obtain rfl := hx
    show (if s.head = 0 then (0x00#8 :: s.tape.toList, s.head + 1 - 1) else (s.tape.toList, s.head - 1)) = _
    rw [State.shiftLeft_head, growLeft_one, shiftLeft_one_toList]
    split <;> rfl

theorem isFunction_represents : Represents functionTape IsFunction where
  congr ht hh hx d := (cellAt_congr ht hh d).trans (hx d)
  cell {s x} h hx := by rw [cell?_eq_cellAt h, hx, Int.add_zero]; rfl
  setCell {s x} h hx v d := by
    rw [cellAt_setCell h, hx]
    show _ = if x.2 + d = x.2 then v else x.1 (x.2 + d)
    simp only [add_eq_left]
  right {s x} h hx d := by
    rw [cellAt_shiftRight h, hx]
    exact congrArg x.1 (by show x.2 + (d + 1) = x.2 + 1 + d; omega)
  left {s x} h hx d := by
    rw [cellAt_shiftLeft h, hx]
    exact congrArg x.1 (by show x.2 + (d - 1) = x.2 - 1 + d; omega)

/-! ## The four operations on the tape (R110, R111, R120, R121) -/

/-- The operations whose Normal-mode body is the tape operation of `tapeEffect`. -/
def IsTapeOp (i : Instr) : Prop := i = .add ∨ i = .subtract ∨ i = .left ∨ i = .right

/-- A tape operation acts on the machine's tape as on the other form, and then advances. -/
theorem exec_tapeOp (hR : Represents T R) (hi : IsTapeOp i) (h : TapeInv s) (hm : s.mode = .normal)
    (hb : s.realisation.maxTapeCells = none) (hx : R s x) :
    ∃ u, exec i s = .next u.advance ∧ u = { s with tape := u.tape, head := u.head } ∧ TapeInv u ∧
      R u (tapeEffect T x i) := by
  have hc := hR.cell h hx
  obtain rfl | rfl | rfl | rfl := hi
  · refine ⟨_, exec_add_normal hm hc, rfl, tapeInv_setCell h _, ?_⟩
    rw [addDelta_one]; exact hR.setCell h hx _
  · refine ⟨_, exec_subtract_normal hm hc, rfl, tapeInv_setCell h _, ?_⟩
    rw [subtractDelta_one]; exact hR.setCell h hx _
  · exact ⟨_, exec_left_normal hm (mayGrow_of_unbounded hb _), rfl, tapeInv_shiftLeft h 1, hR.left h hx⟩
  · exact ⟨_, exec_right_normal hm (mayGrow_of_unbounded hb _), rfl, tapeInv_shiftRight h 1, hR.right h hx⟩

/-- So does a list of tape operations. -/
theorem execAll_tapeOps (hR : Represents T R) {ops : List Instr} (hops : ∀ i ∈ ops, IsTapeOp i) (h : TapeInv s)
    (hm : s.mode = .normal) (hb : s.realisation.maxTapeCells = none) (hx : R s x) :
    ∃ t, execAll ops s = .next t ∧ TapeInv t ∧ t.ip = s.ip + ops.length ∧ R t (ops.foldl (tapeEffect T) x) := by
  induction ops generalizing s x with
  | nil => exact ⟨s, rfl, h, rfl, hx⟩
  | cons i ops ih =>
    obtain ⟨hi, hops⟩ := List.forall_mem_cons.1 hops
    obtain ⟨u, hexec, hu, hut, hux⟩ := exec_tapeOp hR hi h hm hb hx
    have hum : u.advance.mode = .normal := by rw [hu]; exact hm
    have hub : u.advance.realisation.maxTapeCells = none := by rw [hu]; exact hb
    have huip : u.advance.ip = s.ip + 1 := by rw [hu]; rfl
    obtain ⟨t, hall, ht, hip, htx⟩ := ih hops (s := u.advance) hut hum hub (hR.congr (s := u) rfl rfl hux)
    refine ⟨t, (execAll_cons_of_next hexec).trans hall, ht, ?_, htx⟩
    rw [hip, huip, List.length_cons, Nat.add_assoc, Nat.add_comm 1]

/-- Settles O47: the tape is the total function seen from its head, and each operation of the list keeps it so. -/
theorem movesAndWritesActAsOnAnInfiniteTape : Obligations.MovesAndWritesActAsOnAnInfiniteTape := by
  intro ops s hops h hm hb
  exact execAll_tapeOps (R := IsFunction) isFunction_represents hops h hm hb fun d => by rw [Int.zero_add]

/-! ## The bodies (R99) -/

/-- The machine's state and a state of the pseudocode say the same. -/
def SameOver (R : State → τ → Prop) (s : State) (p : Pseudo τ) : Prop := p = s.over p.tape ∧ R s p.tape

theorem sameOver_over (hx : R s x) : SameOver R s (s.over x) := ⟨rfl, hx⟩

/-- The engine in the middle of a step that has not faulted and does not wait, of the same realisation as before. -/
def Settled (s t : State) : Prop := t.status = .running ∧ t.wait = none ∧ t.realisation = s.realisation

/-- The request that an operation makes where it waits. -/
def pendingRequest (T : TapeModel τ) (i : Instr) (x : τ) : Request := if i = .read then .input else .output (T.cell x)

/-- The operation `i` ends as its body does. -/
def BodyAgrees (T : TapeModel τ) (R : State → τ → Prop) (i : Instr) (s : State) (x : τ) : BodyEnd τ → Prop
  | .fell q => ∃ t, exec i s = .next t.advance ∧ SameOver R t q ∧ Settled s t
  | .jumped q => ∃ t, exec i s = .next t ∧ SameOver R t q ∧ Settled s t
  | .raised kind sub ports => exec i s = .next (State.raise kind sub { s with wait := none, ports := ports })
  | .waits => exec i s = .next (s.await (pendingRequest T i x))

/-- A plain operation in Skipping mode: nothing but the advance (R96). -/
theorem bodyAgrees_plain_skipping {o : Nat} (hm : s.mode = .skipping o) (hs : i ≠ .loopStart) (he : i ≠ .loopEnd)
    (hsettled : Settled s s) (hx : R s x) : BodyAgrees T R i s x (pseudoBody T i (s.over x)) := by
  have hbody : pseudoBody T i (s.over x) = .fell (s.over x) := by
    have hm' : (s.over x).mode = .skipping o := hm
    cases i with
    | loopStart => exact absurd rfl hs
    | loopEnd => exact absurd rfl he
    | _ => simp only [pseudoBody, hm']
  rw [hbody]
  exact ⟨s, exec_plain_skipping hm hs he, sameOver_over hx, hsettled⟩

theorem pseudoBody_tapeOp {p : Pseudo τ} (hi : IsTapeOp i) (hm : p.mode = .normal) :
    pseudoBody T i p = .fell { p with tape := tapeEffect T p.tape i } := by
  obtain rfl | rfl | rfl | rfl := hi <;> simp only [pseudoBody, hm, tapeEffect]

theorem bodyAgrees_tapeOp (hR : Represents T R) (hi : IsTapeOp i) (h : TapeInv s) (hm : s.mode = .normal)
    (hb : s.realisation.maxTapeCells = none) (hsettled : Settled s s) (hx : R s x) :
    BodyAgrees T R i s x (pseudoBody T i (s.over x)) := by
  obtain ⟨u, hexec, hu, -, hux⟩ := exec_tapeOp hR hi h hm hb hx
  rw [pseudoBody_tapeOp hi hm]
  refine ⟨u, hexec, ⟨?_, hux⟩, ?_⟩
  · rw [hu]; rfl
  · rw [hu]; exact hsettled

/-- Read on each answer of the input port (R130, R132, R178). -/
theorem bodyAgrees_read (hR : Represents T R) (h : TapeInv s) (hm : s.mode = .normal) (hrun : s.status = .running)
    (hx : R s x) : BodyAgrees T R .read s x (pseudoBody T .read (s.over x)) := by
  have hm' : (s.over x).mode = .normal := hm
  have hc := hR.cell h hx
  match hi : s.ports.inAnswers with
  | [] =>
    have hi' : (s.over x).ports.inAnswers = [] := hi
    simp only [pseudoBody, hm', hi']
    exact exec_read_waits hm hc hi
  | .byte b :: rest =>
    have hi' : (s.over x).ports.inAnswers = .byte b :: rest := hi
    simp only [pseudoBody, hm', hi']
    exact ⟨_, exec_read_byte hm hc hi,
      ⟨by simp [State.over, hm], hR.setCell (s := s.tookInput rest [b]) h (hR.congr (s := s) rfl rfl hx) b⟩, hrun, rfl, rfl⟩
  | .exhausted :: rest =>
    have hi' : (s.over x).ports.inAnswers = .exhausted :: rest := hi
    simp only [pseudoBody, hm', hi']
    show exec .read s = _
    rw [exec_read_exhausted hm hc hi, State.tookInput_nil]; rfl
  | .error :: rest =>
    have hi' : (s.over x).ports.inAnswers = .error :: rest := hi
    simp only [pseudoBody, hm', hi']
    show exec .read s = _
    rw [exec_read_error hm hc hi, State.tookInput_nil]; rfl

/-- Write on each answer of the output port (R131, R178). -/
theorem bodyAgrees_write (hR : Represents T R) (h : TapeInv s) (hm : s.mode = .normal) (hrun : s.status = .running)
    (hx : R s x) : BodyAgrees T R .write s x (pseudoBody T .write (s.over x)) := by
  have hm' : (s.over x).mode = .normal := hm
  have hc := hR.cell h hx
  match ho : s.ports.outAnswers with
  | [] =>
    have ho' : (s.over x).ports.outAnswers = [] := ho
    simp only [pseudoBody, hm', ho']
    exact exec_write_waits hm hc ho
  | .ok :: rest =>
    have ho' : (s.over x).ports.outAnswers = .ok :: rest := ho
    simp only [pseudoBody, hm', ho']
    exact ⟨_, exec_write_ok hm hc ho, ⟨by simp [State.over, hm], hR.congr (s := s) rfl rfl hx⟩, hrun, rfl, rfl⟩
  | .error :: rest =>
    have ho' : (s.over x).ports.outAnswers = .error :: rest := ho
    simp only [pseudoBody, hm', ho']
    show exec .write s = _
    rw [exec_write_error hm hc ho, State.tookOutput_nil]; rfl

/-- LoopStart in each mode (R140, R141). -/
theorem bodyAgrees_loopStart (hR : Represents T R) (h : TapeInv s) (hb : s.realisation.maxLoopDepth = none)
    (hsettled : Settled s s) (hx : R s x) : BodyAgrees T R .loopStart s x (pseudoBody T .loopStart (s.over x)) := by
  have hp := mayPush_of_unbounded hb
  cases hm : s.mode with
  | normal =>
    have hm' : (s.over x).mode = .normal := hm
    simp only [pseudoBody, hm']
    exact ⟨_, exec_loopStart_normal hp hm (hR.cell h hx), ⟨rfl, hR.congr (s := s) rfl rfl hx⟩, hsettled⟩
  | skipping o =>
    have hm' : (s.over x).mode = .skipping o := hm
    simp only [pseudoBody, hm']
    exact ⟨_, exec_loopStart_skipping hp hm, ⟨by simp [State.over, hm], hR.congr (s := s) rfl rfl hx⟩, hsettled⟩

/-- LoopEnd in each mode, on an empty stack and on another (R142, R143, R162). -/
theorem bodyAgrees_loopEnd (hR : Represents T R) (h : TapeInv s) (hsettled : Settled s s) (hx : R s x) :
    BodyAgrees T R .loopEnd s x (pseudoBody T .loopEnd (s.over x)) := by
  obtain ⟨hrun, hwait, -⟩ := hsettled
  obtain hl | ⟨st, p, hl⟩ := List.eq_nil_or_concat' s.lstack
  · have hraised : pseudoBody T .loopEnd (s.over x) = .raised .unmatchedLoopEnd .none s.ports := by
      cases hm : s.mode <;> simp [pseudoBody, State.over, hm, hl]
    have hnone : { s with wait := none } = s := by rw [← hwait]
    rw [hraised]
    show exec .loopEnd s = .next (State.raise _ _ { s with wait := none })
    rw [hnone]
    exact exec_loopEnd_unmatched hl
  · have hx' : ∀ t : State, t.tape = s.tape → t.head = s.head → R t x := fun t ht hh => hR.congr ht hh hx
    cases hm : s.mode with
    | normal =>
      have hexec := exec_loopEnd_normal hm hl (hR.cell h hx)
      by_cases h0 : T.cell x = 0x00#8
      · have hbody : pseudoBody T .loopEnd (s.over x) = .fell { s.over x with lstack := st } := by
          simp [pseudoBody, State.over, hm, hl, h0]
        rw [if_pos h0] at hexec
        rw [hbody]
        exact ⟨{ s with lstack := st }, hexec, ⟨rfl, hx' _ rfl rfl⟩, hrun, hwait, rfl⟩
      · have hbody : pseudoBody T .loopEnd (s.over x) = .jumped { s.over x with lstack := st, ip := p } := by
          simp [pseudoBody, State.over, hm, hl, h0]
        rw [if_neg h0] at hexec
        rw [hbody]
        exact ⟨{ s with lstack := st, ip := p }, hexec, ⟨rfl, hx' _ rfl rfl⟩, hrun, hwait, rfl⟩
    | skipping o =>
      have hbody : pseudoBody T .loopEnd (s.over x) =
          .fell { s.over x with lstack := st, mode := if p = o then .normal else .skipping o } := by
        simp [pseudoBody, State.over, hm, hl]
      rw [hbody]
      exact ⟨{ s with lstack := st, mode := if p = o then .normal else .skipping o }, exec_loopEnd_skipping hm hl,
        ⟨rfl, hx' _ rfl rfl⟩, hrun, hwait, rfl⟩

/-- Every operation of a legal Running state without bounds ends as its body does. -/
theorem body_agrees (hR : Represents T R) (h : EngineInv s) (hb : Unbounded s) (hrun : s.status = .running)
    (hf : s.fetch = some i) (hx : R s x) : BodyAgrees T R i s x (pseudoBody T i (s.over x)) := by
  obtain ⟨htape, hloop⟩ := hb
  have hsettled : ¬ (s.mode = .normal ∧ (i = .read ∨ i = .write)) → Settled s s := fun hno =>
    ⟨hrun, WaitInv.eq_none h.wait hf hno, rfl⟩
  by_cases hs : i = .loopStart
  · subst hs
    exact bodyAgrees_loopStart hR h.tape hloop (hsettled (by simp)) hx
  by_cases he : i = .loopEnd
  · subst he
    exact bodyAgrees_loopEnd hR h.tape (hsettled (by simp)) hx
  cases hm : s.mode with
  | skipping o => exact bodyAgrees_plain_skipping hm hs he (hsettled (by simp [hm])) hx
  | normal =>
    have tapeOp : IsTapeOp i → BodyAgrees T R i s x (pseudoBody T i (s.over x)) := fun hi =>
      bodyAgrees_tapeOp hR hi h.tape hm htape (hsettled (by obtain rfl | rfl | rfl | rfl := hi <;> simp)) hx
    cases i with
    | add => exact tapeOp (.inl rfl)
    | subtract => exact tapeOp (.inr (.inl rfl))
    | left => exact tapeOp (.inr (.inr (.inl rfl)))
    | right => exact tapeOp (.inr (.inr (.inr rfl)))
    | read => exact bodyAgrees_read hR h.tape hm hrun hx
    | write => exact bodyAgrees_write hR h.tape hm hrun hx
    | loopStart => exact absurd rfl hs
    | loopEnd => exact absurd rfl he

/-! ## The step (R99) -/

/-- The step of the machine ends as that of the pseudocode does. -/
def StepAgrees (T : TapeModel τ) (R : State → τ → Prop) (s : State) (x : τ) : PseudoStep τ → Prop
  | .noTransition => step s = .refused .stepAfterFault
  | .waits => s.status = .running ∧ ∃ i, s.fetch = some i ∧ step s = .next (s.await (pendingRequest T i x))
  | .replies reply q => ∃ t, step s = .next t ∧ SameOver R t q ∧ stepReply t = some reply ∧
      t.wait = none ∧ t.realisation = s.realisation

/-- The reply of a step after its body, at the ip where it ends. -/
theorem stepAgrees_of_settled (hR : Represents T R) {q : Pseudo τ} (hq : SameOver R t q) (ht : Settled s t) {u : State}
    (hu : u = { t with ip := u.ip }) (hs : step s = .next u) :
    StepAgrees T R s x (.replies (.cont (decide (u.ip < q.prog.length))) { q with ip := u.ip }) := by
  obtain ⟨hrun, hwait, hreal⟩ := ht
  obtain ⟨hqt, hqx⟩ := hq
  refine ⟨u, hs, ⟨?_, hR.congr (s := t) (by rw [hu]) (by rw [hu]) hqx⟩, ?_, by rw [hu]; exact hwait,
    by rw [hu]; exact hreal⟩
  · rw [hu, hqt]; rfl
  · rw [stepReply_of_running (by rw [hu]; exact hrun) (by rw [hu]; exact hwait), hqt, hu]; rfl

/-- After a fault neither has a transition (R92). -/
theorem stepAgrees_of_faulted {f : FaultRecord} (hs : s.status = .faulted f) :
    StepAgrees T R s x (pseudoStep T (s.over x)) := by
  have hpseudo : pseudoStep T (s.over x) = .noTransition := by simp [pseudoStep, State.over, hs]
  rw [hpseudo]
  exact stepAfterFaultIsRefused s f hs

/-- Past the end both make the end check (R91). -/
theorem stepAgrees_of_fetch_none (hw : WaitInv s) (hrun : s.status = .running) (hf : s.fetch = none) (hx : R s x) :
    StepAgrees T R s x (pseudoStep T (s.over x)) := by
  have hpseudo : pseudoStep T (s.over x) = .replies (.cont false) (s.over x) := by
    have hf' : s.prog[s.ip]? = none := hf
    simp [pseudoStep, State.over, hrun, hf']
  obtain ⟨hstep, hreply⟩ := endCheckWritesNothing s hrun hw (fetch_eq_none.1 hf)
  rw [hpseudo]
  exact ⟨s, hstep, sameOver_over hx, hreply, wait_eq_none_of_fetch_none hw hf, rfl⟩

/-- Else both run the fetched operation, and reply as its body ended. -/
theorem stepAgrees_of_body (hR : Represents T R) (hrun : s.status = .running) (hf : s.fetch = some i) (hx : R s x)
    (hbody : BodyAgrees T R i s x (pseudoBody T i (s.over x))) : StepAgrees T R s x (pseudoStep T (s.over x)) := by
  have hstep := step_of_fetch hrun hf
  have hrun' : (s.over x).status = .running := hrun
  have hf' : (s.over x).prog[(s.over x).ip]? = some i := hf
  cases he : pseudoBody T i (s.over x) with
  | fell q =>
    have hpseudo : pseudoStep T (s.over x) =
        .replies (.cont (decide (q.ip + 1 < q.prog.length))) { q with ip := q.ip + 1 } := by
      simp only [pseudoStep, hrun', hf', he]
    obtain ⟨t, hexec, hq, ht⟩ := he ▸ hbody
    have hip : q.ip = t.ip := by rw [hq.1]; rfl
    rw [hpseudo, hip]
    exact stepAgrees_of_settled hR (u := t.advance) hq ht rfl (hstep.trans hexec)
  | jumped q =>
    have hpseudo : pseudoStep T (s.over x) = .replies (.cont (decide (q.ip < q.prog.length))) q := by
      simp only [pseudoStep, hrun', hf', he]
    obtain ⟨t, hexec, hq, ht⟩ := he ▸ hbody
    have hip : q.ip = t.ip := by rw [hq.1]; rfl
    have hqip : { q with ip := t.ip } = q := by rw [← hip]
    have hreply := stepAgrees_of_settled (x := x) hR (u := t) hq ht rfl (hstep.trans hexec)
    rw [hqip] at hreply
    rw [hpseudo, hip]
    exact hreply
  | raised kind sub ports =>
    have hpseudo : pseudoStep T (s.over x) =
        .replies (.fault { kind := kind, sub := sub, pos := s.ip })
          { s.over x with status := .faulted { kind := kind, sub := sub, pos := s.ip }, ports := ports } := by
      simp only [pseudoStep, hrun', hf', he]; rfl
    have hexec : exec i s = .next (State.raise kind sub { s with wait := none, ports := ports }) := by
      rw [he] at hbody; exact hbody
    rw [hpseudo]
    exact ⟨_, hstep.trans hexec, ⟨rfl, hR.congr (s := s) rfl rfl hx⟩, rfl, rfl, rfl⟩
  | waits =>
    have hpseudo : pseudoStep T (s.over x) = .waits := by simp only [pseudoStep, hrun', hf', he]
    rw [he] at hbody
    rw [hpseudo]
    exact ⟨hrun, i, hf, hstep.trans hbody⟩

/-- The step of a legal engine without bounds ends as the pseudocode over any other form of its tape. -/
theorem step_agrees (hR : Represents T R) (h : EngineInv s) (hb : Unbounded s) (hx : R s x) :
    StepAgrees T R s x (pseudoStep T (s.over x)) := by
  cases hrun : s.status with
  | faulted f => exact stepAgrees_of_faulted hrun
  | running =>
    cases hf : s.fetch with
    | none => exact stepAgrees_of_fetch_none h.wait hrun hf hx
    | some i => exact stepAgrees_of_body hR hrun hf hx (body_agrees hR h hb hrun hf hx)

/-- A step that waits has no reply yet. -/
theorem stepReply_await (hrun : s.status = .running) (r : Request) : stepReply (s.await r) = none := by
  simp only [stepReply, State.await_status, hrun, State.await_wait]

/-- Settles O48: the sequence is a form of the tape, so the step ends as the pseudocode over it does. -/
theorem stepRefinesThePseudocode : Obligations.StepRefinesThePseudocode := by
  intro s h hb
  have hagrees : StepAgrees sequenceTape IsSequence s _ (pseudoStep sequenceTape s.asSequence) :=
    step_agrees isSequence_represents h hb rfl
  generalize pseudoStep sequenceTape s.asSequence = e at hagrees
  cases e with
  | noTransition => exact hagrees
  | waits =>
    obtain ⟨hrun, i, -, hstep⟩ := hagrees
    exact ⟨_, hstep, stepReply_await hrun _⟩
  | replies reply p =>
    obtain ⟨t, hstep, ⟨hp, hx⟩, hreply, -, -⟩ := hagrees
    refine ⟨t, hstep, ?_, hreply⟩
    rw [hp, hx]; rfl

/-- Settles O49: the total function is a form of the tape, so the step ends as the pseudocode over it does. -/
theorem functionTapeSimulatesTheMachine : Obligations.FunctionTapeSimulatesTheMachine := by
  intro s p h hb ⟨hp, hx⟩
  have hagrees : StepAgrees functionTape IsFunction s p.tape (pseudoStep functionTape p) :=
    hp ▸ step_agrees isFunction_represents h hb hx
  generalize pseudoStep functionTape p = e at hagrees
  cases e with
  | noTransition => exact hagrees
  | waits =>
    obtain ⟨-, i, -, hstep⟩ := hagrees
    exact ⟨_, hstep, hp, fun d => (cellAt_congr rfl rfl d).trans (hx d)⟩
  | replies reply q =>
    obtain ⟨t, hstep, hq, hreply, -, -⟩ := hagrees
    exact ⟨t, hstep, hq, hreply⟩

/-! ## Two engines that differ in growth only (R25) -/

/-- Two engines that say the same as one state over the total function differ in growth only. -/
theorem sameButGrowth_of_sameOver {t' : State} {q : Pseudo ((Int → Byte) × Int)} (h : SameOver IsFunction t q)
    (h' : SameOver IsFunction t' q) (hw : t'.wait = t.wait) (hr : t'.realisation = t.realisation) : SameButGrowth t t' := by
  obtain ⟨hq, hx⟩ := h
  obtain ⟨hq', hx'⟩ := h'
  refine ⟨?_, fun d => (hx d).trans (hx' d).symm⟩
  have hover : t'.over q.tape = t.over q.tape := hq'.symm.trans hq
  cases t; cases t'
  simp only [State.over, Pseudo.mk.injEq] at hover
  obtain ⟨-, rfl, rfl, rfl, rfl, rfl, rfl⟩ := hover
  obtain rfl := hw
  obtain rfl := hr
  rfl

/-- An engine that differs in growth only says the same as the same state over the total function. -/
theorem SameButGrowth.isFunction {s' : State} (h : SameButGrowth s s') : IsFunction s' (cellAt s, 0) := fun d =>
  (h.2 d).symm.trans (by rw [Int.zero_add])

theorem SameButGrowth.over_eq {s' : State} (h : SameButGrowth s s') (x : τ) : s'.over x = s.over x := by
  rw [h.1]; rfl

theorem SameButGrowth.stepReply_eq {s' : State} (h : SameButGrowth s s') : stepReply s' = stepReply s := by
  rw [h.1]; rfl

theorem SameButGrowth.ports_eq {s' : State} (h : SameButGrowth s s') : s'.ports = s.ports := by
  rw [h.1]

theorem SameButGrowth.await {s' : State} (h : SameButGrowth s s') (r : Request) : SameButGrowth (s.await r) (s'.await r) :=
  ⟨by rw [h.1]; rfl, h.2⟩

/-- One step keeps two such engines such: the pseudocode over the total function is the same for both. -/
theorem SameButGrowth.exists_step {s' : State} (hsame : SameButGrowth s s') (h : EngineInv s) (h' : EngineInv s')
    (hb : Unbounded s) (hs : step s = .next t) : ∃ t', step s' = .next t' ∧ SameButGrowth t t' := by
  have hreal : s'.realisation = s.realisation := by rw [hsame.1]
  have hfetch : s'.fetch = s.fetch := by rw [hsame.1]; rfl
  have hb' : Unbounded s' := by rw [Unbounded, hreal]; exact hb
  have hself : SameButGrowth s s := ⟨rfl, fun _ => rfl⟩
  have hagrees := step_agrees isFunction_represents h hb hself.isFunction
  have hagrees' := step_agrees isFunction_represents h' hb' hsame.isFunction
  rw [hsame.over_eq] at hagrees'
  generalize pseudoStep functionTape (s.over (cellAt s, 0)) = e at hagrees hagrees'
  cases e with
  | noTransition => cases hs.symm.trans hagrees
  | waits =>
    obtain ⟨-, i, hf, hstep⟩ := hagrees
    obtain ⟨-, i', hf', hstep'⟩ := hagrees'
    obtain rfl : i = i' := Option.some.inj (hf.symm.trans (hfetch.symm.trans hf'))
    cases hs.symm.trans hstep
    exact ⟨_, hstep', hsame.await _⟩
  | replies reply q =>
    obtain ⟨u, hstep, hq, -, hw, hr⟩ := hagrees
    obtain ⟨t', hstep', hq', -, hw', hr'⟩ := hagrees'
    cases hs.symm.trans hstep
    exact ⟨t', hstep', sameButGrowth_of_sameOver hq hq' (hw'.trans hw.symm) (hr'.trans (hreal.trans hr.symm))⟩

/-- Nothing but a new engine sets the realisation. -/
theorem step_realisation_eq (hs : step s = .next t) : t.realisation = s.realisation := by
  obtain ⟨-, ⟨-, rfl⟩ | ⟨i, -, he⟩⟩ := step_effect hs
  · rfl
  · exact he.realisation_eq

/-- Settles O50: by induction on the steps, each of which keeps both engines legal and the difference one of growth. -/
theorem materializedLengthIsUnobservable : Obligations.MaterializedLengthIsUnobservable := by
  intro n
  induction n with
  | zero =>
    intro s s' t _ _ _ hsame hdrive
    cases hdrive
    exact ⟨s', rfl, hsame, hsame.stepReply_eq, hsame.ports_eq⟩
  | succ n ih =>
    intro s s' t h h' hb hsame hdrive
    simp only [drive] at hdrive ⊢
    split at hdrive
    next u hu =>
      obtain ⟨u', hu', hsame'⟩ := hsame.exists_step h h' hb hu
      simp only [hu', hsame'.stepReply_eq]
      split at hdrive
      next hcont =>
        rw [if_pos hcont]
        have hbu : Unbounded u := by rw [Unbounded, step_realisation_eq hu]; exact hb
        exact ih u u' t (stepKeepsTheEngineInvariant s u h hu) (stepKeepsTheEngineInvariant s' u' h' hu') hbu hsame' hdrive
      next hstop =>
        cases hdrive
        rw [if_neg hstop]
        exact ⟨u', rfl, hsame', hsame'.stepReply_eq, hsame'.ports_eq⟩
    all_goals cases hdrive

end Sys2Proof.Machine
end

section
/-! Proofs about runs under a host (40_execution_cycle.md R102 to R104): every run has an outcome, no two, and a host that always
answers never blocks one. -/

namespace Sys2Proof.Machine

variable {h h' : HostAnswers} {s t u w : State} {i : Instr}

/-! ## A host's answer keeps the engine legal (R46, R173) -/

/-- The ports are no part of the engine's invariant. -/
theorem EngineInv.with_ports (hinv : EngineInv s) (p : Ports) : EngineInv { s with ports := p } where
  tape := hinv.tape
  pointer := hinv.pointer
  stack := hinv.stack
  skip := hinv.skip
  status := hinv.status
  wait := hinv.wait
  capacity := hinv.capacity

theorem EngineInv.of_respond (hinv : EngineInv s) (hr : h.respond s = some (h', u)) : EngineInv u := by
  obtain ⟨a, -, -, -, -, rfl⟩ | ⟨b, a, -, -, -, -, rfl⟩ := respond_eq_some hr
  · exact hinv.with_ports _
  · exact hinv.with_ports _

/-- An engine that can be answered waits, so it is Running, and the answer leaves it so. -/
theorem EngineInv.running_of_respond (hinv : EngineInv s) (hr : h.respond s = some (h', u)) : u.status = .running := by
  obtain ⟨a, hw, -, -, -, rfl⟩ | ⟨b, a, hw, -, -, -, rfl⟩ := respond_eq_some hr
  · exact (hinv.wait _ hw).1
  · exact (hinv.wait _ hw).1

theorem EngineInv.of_hostedStep (hinv : EngineInv s) (hs : hostedStep h s = .next (h', t)) : EngineInv t :=
  hostedStep_keeps stepKeepsTheEngineInvariant (fun _ _ _ _ hinv => hinv.of_respond) hinv hs

theorem EngineInv.of_hostedRun {n : Nat} (hinv : EngineInv s) (hr : hostedRun n h s = .next t) : EngineInv t :=
  hostedRun_keeps stepKeepsTheEngineInvariant (fun _ _ _ _ hinv => hinv.of_respond) hinv hr

/-! ## A run never stops otherwise (R42, R90) -/

theorem hostedStep_exists (h : HostAnswers) (hinv : EngineInv s) (hrun : s.status = .running) :
    ∃ h' t, hostedStep h s = .next (h', t) := by
  obtain ⟨w, hw⟩ := runningEngineNeverStops s hinv hrun
  have hinvw : EngineInv w := stepKeepsTheEngineInvariant s w hinv hw
  simp only [hostedStep, hw]
  cases hr : h.respond w with
  | none => exact ⟨h, w, rfl⟩
  | some answered =>
    obtain ⟨h', u⟩ := answered
    obtain ⟨t, ht⟩ := runningEngineNeverStops u (hinvw.of_respond hr) (hinvw.running_of_respond hr)
    exact ⟨h', t, by simp only [ht]⟩

theorem hostedRun_exists (n : Nat) (h : HostAnswers) (hinv : EngineInv s) (hrun : s.status = .running) :
    ∃ t, hostedRun n h s = .next t := by
  induction n generalizing h s with
  | zero => exact ⟨s, rfl⟩
  | succ n ih =>
    obtain ⟨h', u, hu⟩ := hostedStep_exists h hinv hrun
    simp only [hostedRun, hu]
    split
    next hcont => exact ih h' (hinv.of_hostedStep hu) (stepReply_eq_cont_iff.1 hcont).1
    next => exact ⟨u, rfl⟩

/-! ## No two outcomes (R103) -/

/-- Some step of the run ends it with this reply, or with none in a wait that is not answered. `Completes`, `FaultsWith` and
`Blocks` are this for their replies. -/
def EndsWith (h : HostAnswers) (s : State) (r : Option StepReply) : Prop :=
  ∃ n t, hostedRun (n + 1) h s = .next t ∧ stepReply t = r

theorem hostedRun_ended_of_le {n m : Nat} (hr : hostedRun (n + 1) h s = .next t) (he : stepReply t ≠ some (.cont true))
    (hle : n ≤ m) : hostedRun (m + 1) h s = .next t := by
  have hm : m + 1 = n + 1 + (m - n) := by omega
  rw [hm]
  exact hostedRun_ended hr he (m - n)

theorem EndsWith.unique {r r' : Option StepReply} (he : EndsWith h s r) (he' : EndsWith h s r')
    (hr : r ≠ some (.cont true)) (hr' : r' ≠ some (.cont true)) : r = r' := by
  obtain ⟨n, t, ht, rfl⟩ := he
  obtain ⟨n', t', ht', rfl⟩ := he'
  have hlong := hostedRun_ended_of_le ht hr (Nat.le_max_left n n')
  have hlong' := hostedRun_ended_of_le ht' hr' (Nat.le_max_right n n')
  cases hlong.symm.trans hlong'
  rfl

theorem EndsWith.not_diverges {r : Option StepReply} (he : EndsWith h s r) (hr : r ≠ some (.cont true)) :
    ¬ Diverges h s := by
  intro hdiv
  obtain ⟨n, t, ht, rfl⟩ := he
  obtain ⟨t', ht', hcont⟩ := hdiv n
  cases ht.symm.trans ht'
  exact hr hcont

/-- A run that does not go on for ever has a step whose reply is another than Continue(true). -/
theorem exists_outcome (h : HostAnswers) (hinv : EngineInv s) (hrun : s.status = .running) :
    Completes h s ∨ (∃ f, FaultsWith h s f) ∨ Diverges h s ∨ Blocks h s := by
  by_cases hdiv : Diverges h s
  · exact .inr (.inr (.inl hdiv))
  · obtain ⟨n, hn⟩ := not_forall.1 hdiv
    obtain ⟨t, ht⟩ := hostedRun_exists (n + 1) h hinv hrun
    match hr : stepReply t with
    | none => exact .inr (.inr (.inr ⟨n, t, ht, hr⟩))
    | some (.fault f) => exact .inr (.inl ⟨f, n, t, ht, hr⟩)
    | some (.cont false) => exact .inl ⟨n, t, ht, hr⟩
    | some (.cont true) => exact absurd ⟨t, ht, hr⟩ hn

/-- Continue(false) says that ip is not below N, and a legal ip is not above it. -/
theorem EngineInv.ip_eq_length (hinv : EngineInv t) (hr : stepReply t = some (.cont false)) : t.ip = t.prog.length := by
  obtain ⟨-, -, hend⟩ := stepReply_eq_cont_iff.1 hr
  exact Nat.le_antisymm hinv.pointer (Nat.le_of_not_lt (of_decide_eq_false hend))

/-! ## A host that always answers (R103 d, R178) -/

/-- The host has an answer for every request. -/
def HostAnswers.Answering (h : HostAnswers) : Prop := (∀ k, h.input k ≠ none) ∧ ∀ k, h.output k ≠ none

theorem HostAnswers.Answering.of_respond (ha : h.Answering) (hr : h.respond s = some (h', u)) : h'.Answering := by
  obtain ⟨-, -, -, -, rfl, -⟩ | ⟨-, -, -, -, -, rfl, -⟩ := respond_eq_some hr
  · exact ⟨fun k => ha.1 (k + 1), ha.2⟩
  · exact ⟨ha.1, fun k => ha.2 (k + 1)⟩

theorem HostAnswers.Answering.of_hostedStep (ha : h.Answering) (hs : hostedStep h s = .next (h', t)) : h'.Answering := by
  obtain ⟨-, -, rfl⟩ | ⟨w, u, -, hr, -⟩ := hostedStep_next hs
  · exact ha
  · exact ha.of_respond hr

/-- The engine waits for input in a Read alone. -/
theorem WaitInv.fetch_of_input (hi : WaitInv s) (hw : s.wait = some .input) : s.fetch = some .read := by
  obtain ⟨-, -, ⟨-, hf⟩ | ⟨c, -, hr, -⟩⟩ := hi _ hw
  · exact hf
  · cases hr

/-- The engine waits for output in a Write alone. -/
theorem WaitInv.fetch_of_output {b : Byte} (hi : WaitInv s) (hw : s.wait = some (.output b)) : s.fetch = some .write := by
  obtain ⟨-, -, ⟨hr, -⟩ | ⟨c, -, -, hf⟩⟩ := hi _ hw
  · cases hr
  · exact hf

/-- Once its request is answered, the operation does not wait again: it makes one request. -/
theorem wait_eq_none_of_respond (hi : WaitInv u) (hr : h.respond w = some (h', u)) (hs : step u = .next t) :
    t.wait = none := by
  obtain ⟨a, hw, -, -, -, rfl⟩ | ⟨b, a, hw, -, -, -, rfl⟩ := respond_eq_some hr
  · have hf := WaitInv.fetch_of_input hi hw
    obtain hnone | ⟨-, -, hempty, -⟩ | ⟨hwrite, -⟩ := (effect_of_fetch hf hs).wait_cases hf hi
    · exact hnone
    · cases hempty
    · cases hwrite
  · have hf := WaitInv.fetch_of_output hi hw
    obtain hnone | ⟨hread, -⟩ | ⟨-, -, hempty, -⟩ := (effect_of_fetch hf hs).wait_cases hf hi
    · exact hnone
    · cases hread
    · cases hempty

/-- Under such a host a whole step does not end in a wait. -/
theorem hostedStep_wait_eq_none (ha : h.Answering) (hinv : EngineInv s) (hs : hostedStep h s = .next (h', t)) :
    t.wait = none := by
  obtain ⟨hstep, hnone, -⟩ | ⟨w, u, hw, hr, ht⟩ := hostedStep_next hs
  · by_contra hwait
    exact respond_of_answering ha.1 ha.2 (step_waits hinv.wait hstep hwait) hnone
  · exact wait_eq_none_of_respond ((stepKeepsTheEngineInvariant s w hinv hw).of_respond hr).wait hr ht

/-- A step without a wait has a reply. -/
theorem stepReply_ne_none (hw : t.wait = none) : stepReply t ≠ none := by
  unfold stepReply
  split <;> simp [hw]

theorem hostedRun_replies {n : Nat} (ha : h.Answering) (hinv : EngineInv s) (hr : hostedRun (n + 1) h s = .next t) :
    stepReply t ≠ none := by
  induction n generalizing h s with
  | zero =>
    simp only [hostedRun] at hr
    split at hr
    next h' u hu =>
      have hreply := stepReply_ne_none (hostedStep_wait_eq_none ha hinv hu)
      split at hr <;> cases hr <;> exact hreply
    all_goals cases hr
  | succ n ih =>
    rw [hostedRun] at hr
    split at hr
    next h' u hu =>
      split at hr
      next => exact ih (ha.of_hostedStep hu) (hinv.of_hostedStep hu) hr
      next => cases hr; exact stepReply_ne_none (hostedStep_wait_eq_none ha hinv hu)
    all_goals cases hr

/-- Settles O51: a run that does not diverge ends, and it ends with one reply, which tells the other three outcomes apart. -/
theorem runHasExactlyOneOutcome : Obligations.RunHasExactlyOneOutcome := by
  intro h s hinv hrun
  refine ⟨exists_outcome h hinv hrun, ?_, ?_, ?_, ?_, ?_, ?_, ?_, ?_, ?_⟩
  · rintro ⟨hc, f, hf⟩
    cases EndsWith.unique hc hf nofun nofun
  · rintro ⟨hc, hd⟩
    exact EndsWith.not_diverges hc nofun hd
  · rintro ⟨hc, hb⟩
    cases EndsWith.unique hc hb nofun nofun
  · rintro ⟨⟨f, hf⟩, hd⟩
    exact EndsWith.not_diverges hf nofun hd
  · rintro ⟨⟨f, hf⟩, hb⟩
    cases EndsWith.unique hf hb nofun nofun
  · rintro ⟨hd, hb⟩
    exact EndsWith.not_diverges hb nofun hd
  · intro f g hf hg
    cases EndsWith.unique hf hg nofun nofun
    rfl
  · intro n t hr hreply
    exact (hinv.of_hostedRun hr).ip_eq_length hreply
  · rintro hi ho ⟨n, t, hr, hnone⟩
    exact hostedRun_replies ⟨hi, ho⟩ hinv hr hnone

/-! ## Loops left open (R104, R145) -/

/-- With room for the entry a LoopStart pushes and advances in either mode; the guard decides at most the mode. -/
theorem exec_loopStart_pushes (hinv : TapeInv s) (hp : s.mayPush = true) :
    ∃ m, exec .loopStart s = .next { s.pushLoop with mode := m }.advance := by
  cases hm : s.mode with
  | normal => exact ⟨_, exec_loopStart_normal hp hm (cell?_of_tapeInv hinv)⟩
  | skipping o => exact ⟨s.mode, exec_loopStart_skipping hp hm⟩

/-- Settles O52: the entry stays on the stack, and the reply looks at ip alone. -/
theorem openLoopsAtTheEndComplete : Obligations.OpenLoopsAtTheEndComplete := by
  intro s hinv ⟨_, hloop⟩ hrun hf hlast
  obtain ⟨m, hexec⟩ := exec_loopStart_pushes hinv.tape (mayPush_of_unbounded hloop)
  have hwait : s.wait = none := WaitInv.eq_none hinv.wait hf (by simp)
  refine ⟨_, (step_of_fetch hrun hf).trans hexec, ?_, hrun, List.mem_concat_self⟩
  have hreply := stepReply_of_running (t := { s.pushLoop with mode := m }.advance) hrun hwait
  have hend : ¬ s.ip + 1 < s.prog.length := by omega
  exact hreply.trans (by simp [hend])

end Sys2Proof.Machine
end

section
/-! Proofs about the load, answer and debug ports (60_exceptions.md R172 to R181; 70_reset_and_hazards.md R190 to R197). -/

namespace Sys2Proof.Machine

variable {s : State} {i : Instr}

/-! ## Reset and load (R175, R193 to R197, log 1) -/

/-- Settles O13: the fields are those of reset with the program stored, and the loader's contract is R81's. -/
theorem resetRegistersAsDecided : Obligations.ResetRegistersAsDecided := by
  refine ⟨fun r p => ⟨rfl, rfl, rfl, rfl, rfl⟩, fun r src => ⟨fun hvalid => ?_, fun hvalid => ?_⟩⟩
  · rw [loadBytes, if_pos hvalid, loadSource_eq_filterMap]
  · rw [loadBytes, if_neg (Bool.eq_false_iff.1 hvalid)]

/-- With no slot missing below ip, the operation stands between the slots before ip and those behind it. -/
theorem storeAtFetch_singleton (hip : s.ip ≤ s.prog.length) (i : Instr) :
    storeAtFetch [i] s = s.prog.take s.ip ++ i :: s.prog.drop (s.ip + 1) := by
  simp [storeAtFetch, Nat.sub_eq_zero_of_le hip]

/-- The byte of an operation, as a table word, stores that operation. -/
theorem withFetchWord_encode_prog (hip : s.ip ≤ s.prog.length) (i : Instr) :
    (s.withFetchWord 8 (encode i).toNat).prog = s.prog.take s.ip ++ i :: s.prog.drop (s.ip + 1) := by
  rw [State.withFetchWord_prog, BitVec.ofNat_toNat, BitVec.setWidth_eq, loadSource_cons_of_some (decode_encode i)]
  exact storeAtFetch_singleton hip i

/-- Settles O14: the stored operation stands at ip, and every other slot that was there stands where it stood. -/
theorem fetchWordIsFetched : Obligations.FetchWordIsFetched := by
  intro s i hip
  have hlen : (s.prog.take s.ip).length = s.ip := List.length_take_of_le hip
  have hprog := withFetchWord_encode_prog hip i
  refine ⟨?_, rfl, fun k hne hk => ?_⟩
  · show (s.withFetchWord 8 (encode i).toNat).prog[s.ip]? = some i
    rw [hprog, List.getElem?_append_right (by rw [hlen]), hlen, Nat.sub_self, List.getElem?_cons_zero]
  · rw [hprog]
    obtain hlt | hgt := Nat.lt_or_gt_of_ne hne
    · rw [List.getElem?_append_left (by rw [hlen]; exact hlt), List.getElem?_take_of_lt hlt]
    · obtain ⟨d, rfl⟩ := Nat.exists_eq_add_of_lt hgt
      rw [List.getElem?_append_right (by rw [hlen]; omega), hlen, Nat.add_assoc, Nat.add_sub_cancel_left,
        List.getElem?_cons_succ, List.getElem?_drop, Nat.add_assoc, Nat.add_comm 1]

/-! ## The host's answers (R173, R174, R181) -/

theorem answerInput_eq_none (a : InAnswer) (h : s.wait ≠ some .input ∨ s.ports.inAnswers ≠ []) :
    answerInput a s = none := by
  refine Option.eq_none_iff_forall_ne_some.2 fun u hu => ?_
  obtain ⟨hw, hl, -⟩ := answerInput_eq_some.1 hu
  exact h.elim (fun hne => hne hw) fun hne => hne hl

theorem answerOutput_eq_none (a : OutAnswer) (h : (∀ c, s.wait ≠ some (.output c)) ∨ s.ports.outAnswers ≠ []) :
    answerOutput a s = none := by
  refine Option.eq_none_iff_forall_ne_some.2 fun u hu => ?_
  obtain ⟨⟨c, hw⟩, hl, -⟩ := answerOutput_eq_some.1 hu
  exact h.elim (fun hne => hne c hw) fun hne => hne hl

/-- Settles O54: an answered request has its port's list filled, and it is no request of the other port. -/
theorem onlyAnIssuedRequestIsAnswered : Obligations.OnlyAnIssuedRequestIsAnswered := by
  refine ⟨fun a s => ⟨answerInput_eq_none a, fun hw hl => ?_⟩, fun a s => ⟨answerOutput_eq_none a, fun c hw hl => ?_⟩⟩
  · refine ⟨_, answerInput_eq_some.2 ⟨hw, hl, rfl⟩, rfl, fun b => ?_, fun b => ?_⟩
    · exact answerInput_eq_none b (.inr (List.cons_ne_nil a []))
    · exact answerOutput_eq_none b (.inl fun c hc => by cases hw.symm.trans hc)
  · refine ⟨_, answerOutput_eq_some.2 ⟨⟨c, hw⟩, hl, rfl⟩, rfl, fun b => ?_, fun b => ?_⟩
    · exact answerOutput_eq_none b (.inr (List.cons_ne_nil a []))
    · exact answerInput_eq_none b (.inl fun hc => by cases hw.symm.trans hc)

/-! ## The debug port (R35, R177) -/

theorem readFaultField_running (h : s.status = .running) (field : FaultRecord → DebugValue) :
    readFaultField s field = .refused .unspecifiedField := by
  simp only [readFaultField, h]

theorem readFaultField_faulted {f : FaultRecord} (h : s.status = .faulted f) (field : FaultRecord → DebugValue) :
    readFaultField s field = .next (field f) := by
  simp only [readFaultField, h]

theorem debugRead_statusKind {f : FaultRecord} {k : FaultKind} (h : s.status = .faulted f) (hk : f.kind = k) :
    debugRead .statusKind s = .next (.kind k.code) :=
  hk ▸ readFaultField_faulted h _

theorem debugRead_statusSub {f : FaultRecord} {c : SubCause} (h : s.status = .faulted f) (hc : f.sub = c) :
    debugRead .statusSub s = .next (.sub c.code) :=
  hc ▸ readFaultField_faulted h _

/-- The text that remains is what the source says behind the operations before ip (R83). -/
theorem remainingText_of_loadSource {src : List Byte} (h : s.prog = loadSource src) :
    remainingText s =
      (src.filter (fun b => decide (b ∈ [0x2B#8, 0x2D#8, 0x2C#8, 0x2E#8, 0x3C#8, 0x3E#8, 0x5B#8, 0x5D#8]))).drop s.ip := by
  rw [remainingText, render, List.map_drop, h]
  exact congrArg (List.drop s.ip) (render_loadSource src)

/-- Settles O36: each register reads its field; the mode and the status decide what may be read of the origin and the record. -/
theorem debugReadsFollowTheRegisterMap : Obligations.DebugReadsFollowTheRegisterMap := by
  refine ⟨fun s => ⟨rfl, rfl, rfl, rfl, rfl⟩, fun s hm => ?_, fun s o hm => ?_, fun s hrun => ?_, fun s f hf => ?_,
    fun s => rfl, fun s src => remainingText_of_loadSource⟩
  · constructor <;> simp only [debugRead, hm]
  · constructor <;> simp only [debugRead, hm]
  · exact ⟨by simp only [debugRead, hrun], readFaultField_running hrun _, readFaultField_running hrun _,
      readFaultField_running hrun _⟩
  · exact ⟨by simp only [debugRead, hf], readFaultField_faulted hf _, debugRead_statusKind hf, debugRead_statusKind hf,
      debugRead_statusKind hf, debugRead_statusKind hf, debugRead_statusKind hf, debugRead_statusSub hf,
      debugRead_statusSub hf, debugRead_statusSub hf⟩

end Sys2Proof.Machine
end
